-- ==== Sys2Proof/Syntax.lean ====
section
/-! DEFINITION. The thirty operations of the block (30_encoding.md R77, R81), one constructor per row of
spec/opcode_table.json. An operand is the integer the assembler line gives (R81): an unsigned operand a `Nat`, a signed
one an `Int`, a one-bit operand a `Bool`. Which operands fit their fields is `Instr.wf` (log entry 9). -/

namespace Sys2Proof

/-- One operation (R77). -/
inductive Instr where
  /-- `BB.NEW n` (R100) -/
  | bbNew (n : Nat)
  /-- `BB.GET i` (R101) -/
  | bbGet (i : Nat)
  /-- `BB.SET i, b` (R102) -/
  | bbSet (i : Nat) (b : Bool)
  /-- `BB.WRF first, count, value` (R103) -/
  | bbWrf (first count value : Nat)
  /-- `BB.OCTETS` (R104) -/
  | bbOctets
  /-- `FRAME.DISCARD` (R105) -/
  | frameDiscard
  /-- `FRAME.INFO` (R106) -/
  | frameInfo
  /-- `MAN.NEW.PT` (R120) -/
  | manNewPt
  /-- `MAN.NEW.LENS` (R121) -/
  | manNewLens
  /-- `MAN.NEW.AUX` (R122) -/
  | manNewAux
  /-- `MAN.RECV r` (R123) -/
  | manRecv (r : Int)
  /-- `MAN.PAN v` (R124) -/
  | manPan (v : Int)
  /-- `MAN.TILT v` (R125) -/
  | manTilt (v : Int)
  /-- `MAN.ZOOM v` (R127) -/
  | manZoom (v : Int)
  /-- `MAN.FOCUS v` (R128) -/
  | manFocus (v : Int)
  /-- `MAN.IRIS v` (R129) -/
  | manIris (v : Int)
  /-- `MAN.AUX ch` (R131) -/
  | manAux (ch : Int)
  /-- `VIC.NEW.STATUS` (R150) -/
  | vicNewStatus
  /-- `VIC.NEW.CMD` (R151) -/
  | vicNewCmd
  /-- `VIC.NEW.SPEED` (R152) -/
  | vicNewSpeed
  /-- `VIC.RECV r` (R153) -/
  | vicRecv (r : Int)
  /-- `VIC.PAN v` (R155) -/
  | vicPan (v : Int)
  /-- `VIC.TILT v` (R156) -/
  | vicTilt (v : Int)
  /-- `VIC.ZOOM v` (R157) -/
  | vicZoom (v : Int)
  /-- `VIC.IRIS v` (R158) -/
  | vicIris (v : Int)
  /-- `VIC.FOCUS v` (R159) -/
  | vicFocus (v : Int)
  /-- `VIC.AUTOIRIS b` (R160) -/
  | vicAutoIris (b : Bool)
  /-- `VIC.AUTOPAN b` (R161) -/
  | vicAutoPan (b : Bool)
  /-- `VIC.LENSSPEED b` (R162) -/
  | vicLensSpeed (b : Bool)
  /-- `VIC.AUX ch, b` (R163) -/
  | vicAux (ch : Int) (b : Bool)
  deriving DecidableEq, Repr

end Sys2Proof
end

