-- ==== Sys2Proof/WellFormed.lean ====
section
/-! DEFINITION. Which operations fit the operation word: the operand ranges of 30_encoding.md R81. A one-bit operand is
a `Bool`, so its range 0..1 needs no check. -/

namespace Sys2Proof

/-- `n`, `i` and `first` must be in 0..65535 (R81). -/
def fitsIdx (n : Nat) : Bool := n ≤ 65535

/-- `count` must be in 0..255 (R81). -/
def fitsCount (n : Nat) : Bool := n ≤ 255

/-- `value` must be in 0..2^32-1 (R81). -/
def fitsUnsigned (n : Nat) : Bool := n ≤ 4294967295

/-- Every signed operand must be in -2^31..2^31-1 (R81). -/
def fitsSigned (v : Int) : Bool := -2147483648 ≤ v ∧ v ≤ 2147483647

/-- Every operand fits its field (R81). -/
def Instr.wf : Instr → Bool
  | .bbNew n => fitsIdx n
  | .bbGet i => fitsIdx i
  | .bbSet i _ => fitsIdx i
  | .bbWrf first count value => fitsIdx first && fitsCount count && fitsUnsigned value
  | .bbOctets => true
  | .frameDiscard => true
  | .frameInfo => true
  | .manNewPt => true
  | .manNewLens => true
  | .manNewAux => true
  | .manRecv r => fitsSigned r
  | .manPan v => fitsSigned v
  | .manTilt v => fitsSigned v
  | .manZoom v => fitsSigned v
  | .manFocus v => fitsSigned v
  | .manIris v => fitsSigned v
  | .manAux ch => fitsSigned ch
  | .vicNewStatus => true
  | .vicNewCmd => true
  | .vicNewSpeed => true
  | .vicRecv r => fitsSigned r
  | .vicPan v => fitsSigned v
  | .vicTilt v => fitsSigned v
  | .vicZoom v => fitsSigned v
  | .vicIris v => fitsSigned v
  | .vicFocus v => fitsSigned v
  | .vicAutoIris _ => true
  | .vicAutoPan _ => true
  | .vicLensSpeed _ => true
  | .vicAux ch _ => fitsSigned ch

end Sys2Proof
end

