-- ==== Sys2Proof/Word.lean ====
section
/-! DEFINITION. The two word types of the block's port: the 64-bit operation word (30_encoding.md R74) and the byte of
a serialized frame (20_memory.md R45). -/

namespace Sys2Proof

/-- One serialized byte of a frame, or one byte of an operation word in transit. -/
abbrev Byte := BitVec 8

/-- One operation word `W` of the request port (R74). -/
abbrev OpWord := BitVec 64

end Sys2Proof
end

