-- ==== Sys2Proof/Decode.lean ====
section
/-! DEFINITION. The operation word (30_encoding.md R74-R80): its fields, the decoder, which refuses every illegal word by
name (R78), its byte form, the encoder, and the rows of the opcode table. -/

namespace Sys2Proof

/-! ### Fields (R74) -/

/-- `OP = W[7:0]` -/
def opOf (w : OpWord) : BitVec 8 := w.extractLsb' 0 8

/-- `B = W[15:8]` -/
def bOf (w : OpWord) : BitVec 8 := w.extractLsb' 8 8

/-- `IDX = W[31:16]` -/
def idxOf (w : OpWord) : BitVec 16 := w.extractLsb' 16 16

/-- `VAL = W[63:32]` -/
def valOf (w : OpWord) : BitVec 32 := w.extractLsb' 32 32

/-- `zext_32(VAL)` (R75, 00_scope.md R10) -/
def zext32 (x : BitVec 32) : Nat := x.toNat

/-- `sext_32(VAL)` (R75, 00_scope.md R10) -/
def sext32 (x : BitVec 32) : Int := x.toInt

/-- `W = (VAL << 32) | (IDX << 16) | (B << 8) | OP` (R74) -/
def packWord (op b : BitVec 8) (idx : BitVec 16) (val : BitVec 32) : OpWord := val ++ idx ++ b ++ op

/-! ### Decoder -/

/-- Why a word, or a run of bytes, is no operation. Every one but `tooFewBytes` is the block's `IllegalOp(OP)`
(R78, 60_exceptions.md R185). -/
inductive DecodeError where
  /-- `OP` is not in R77's table (R78 a). -/
  | reservedOpcode (op : BitVec 8)
  /-- A field the operation does not use is not zero (R78 b). -/
  | unusedFieldNotZero (op : BitVec 8)
  /-- `B[7:1]` of a one-bit operand is not zero (R76, R78 b). -/
  | upperBitsOfBNotZero (op : BitVec 8)
  /-- Fewer than the eight bytes of one word (R80; log entry 12). -/
  | tooFewBytes (n : Nat)
  deriving DecidableEq, Repr

/-- The form "none": `B = IDX = VAL = 0`. -/
def formNone (w : OpWord) (i : Instr) : Except DecodeError Instr :=
  if bOf w = 0 ∧ idxOf w = 0 ∧ valOf w = 0 then .ok i else .error (.unusedFieldNotZero (opOf w))

/-- The form "IDX": `B = VAL = 0`. -/
def formIdx (w : OpWord) (mk : Nat → Instr) : Except DecodeError Instr :=
  if bOf w = 0 ∧ valOf w = 0 then .ok (mk (idxOf w).toNat) else .error (.unusedFieldNotZero (opOf w))

/-- The form "IDX+B0": `B[7:1] = 0`, `VAL = 0`. -/
def formIdxBit (w : OpWord) (mk : Nat → Bool → Instr) : Except DecodeError Instr :=
  if ¬ valOf w = 0 then .error (.unusedFieldNotZero (opOf w))
  else if ¬ (bOf w).extractLsb' 1 7 = 0 then .error (.upperBitsOfBNotZero (opOf w))
  else .ok (mk (idxOf w).toNat ((bOf w).getLsbD 0))

/-- The form "IDX+B+VAL": every field is used. -/
def formIdxCountValue (w : OpWord) (mk : Nat → Nat → Nat → Instr) : Except DecodeError Instr :=
  .ok (mk (idxOf w).toNat (bOf w).toNat (zext32 (valOf w)))

/-- The form "VAL": `B = IDX = 0`. -/
def formVal (w : OpWord) (mk : Int → Instr) : Except DecodeError Instr :=
  if bOf w = 0 ∧ idxOf w = 0 then .ok (mk (sext32 (valOf w))) else .error (.unusedFieldNotZero (opOf w))

/-- The form "B0": `B[7:1] = 0`, `IDX = VAL = 0`. -/
def formBit (w : OpWord) (mk : Bool → Instr) : Except DecodeError Instr :=
  if ¬ (idxOf w = 0 ∧ valOf w = 0) then .error (.unusedFieldNotZero (opOf w))
  else if ¬ (bOf w).extractLsb' 1 7 = 0 then .error (.upperBitsOfBNotZero (opOf w))
  else .ok (mk ((bOf w).getLsbD 0))

/-- The form "VAL+B0": `B[7:1] = 0`, `IDX = 0`. -/
def formValBit (w : OpWord) (mk : Int → Bool → Instr) : Except DecodeError Instr :=
  if ¬ idxOf w = 0 then .error (.unusedFieldNotZero (opOf w))
  else if ¬ (bOf w).extractLsb' 1 7 = 0 then .error (.upperBitsOfBNotZero (opOf w))
  else .ok (mk (sext32 (valOf w)) ((bOf w).getLsbD 0))

/-- The opcode map (R77): `OP` alone selects the operation (R80), then the unused fields are checked (R78 b). -/
def decode (w : OpWord) : Except DecodeError Instr :=
  match (opOf w).toNat with
  | 0x01 => formIdx w .bbNew
  | 0x02 => formIdx w .bbGet
  | 0x03 => formIdxBit w .bbSet
  | 0x04 => formIdxCountValue w .bbWrf
  | 0x05 => formNone w .bbOctets
  | 0x06 => formNone w .frameDiscard
  | 0x07 => formNone w .frameInfo
  | 0x10 => formNone w .manNewPt
  | 0x11 => formNone w .manNewLens
  | 0x12 => formNone w .manNewAux
  | 0x13 => formVal w .manRecv
  | 0x14 => formVal w .manPan
  | 0x15 => formVal w .manTilt
  | 0x16 => formVal w .manZoom
  | 0x17 => formVal w .manFocus
  | 0x18 => formVal w .manIris
  | 0x19 => formVal w .manAux
  | 0x20 => formNone w .vicNewStatus
  | 0x21 => formNone w .vicNewCmd
  | 0x22 => formNone w .vicNewSpeed
  | 0x23 => formVal w .vicRecv
  | 0x24 => formVal w .vicPan
  | 0x25 => formVal w .vicTilt
  | 0x26 => formVal w .vicZoom
  | 0x27 => formVal w .vicIris
  | 0x28 => formVal w .vicFocus
  | 0x29 => formBit w .vicAutoIris
  | 0x2A => formBit w .vicAutoPan
  | 0x2B => formBit w .vicLensSpeed
  | 0x2C => formValBit w .vicAux
  | _ => .error (.reservedOpcode (opOf w))

/-! ### The word as bytes: byte 0 is `W[7:0]` (R74, D2) -/

/-- The eight bytes of a word, byte 0 first. -/
def bytesOfWord (w : OpWord) : List Byte :=
  [w.extractLsb' 0 8, w.extractLsb' 8 8, w.extractLsb' 16 8, w.extractLsb' 24 8,
    w.extractLsb' 32 8, w.extractLsb' 40 8, w.extractLsb' 48 8, w.extractLsb' 56 8]

/-- Decode the first word of a run of bytes; the rest is returned. -/
def decodeBytes : List Byte → Except DecodeError (Instr × List Byte)
  | b0 :: b1 :: b2 :: b3 :: b4 :: b5 :: b6 :: b7 :: rest =>
    match decode (b7 ++ b6 ++ b5 ++ b4 ++ b3 ++ b2 ++ b1 ++ b0) with
    | .ok i => .ok (i, rest)
    | .error e => .error e
  | bs => .error (.tooFewBytes bs.length)

/-- The word a table row stands for: its low `nbits` bits are `w`'s, every bit above is 0. -/
def tableWord (nbits w : Nat) : OpWord := BitVec.ofNat 64 (w % 2 ^ nbits)

/-- What the decoder reads from a word of the opcode table, taken through its bytes. -/
def decodeTableWord (nbits w : Nat) : Option Instr :=
  match decodeBytes (bytesOfWord (tableWord nbits w)) with
  | .ok (i, _) => some i
  | .error _ => none

/-! ### Encoder, from the same table (R74-R77) -/

/-- A one-bit operand in `B[0]` (R76). -/
def bitField (b : Bool) : BitVec 8 := if b then 1 else 0

/-- The word of an operation; the word of a well-formed one decodes to it. -/
def encode : Instr → OpWord
  | .bbNew n => packWord 0x01 0 (BitVec.ofNat 16 n) 0
  | .bbGet i => packWord 0x02 0 (BitVec.ofNat 16 i) 0
  | .bbSet i b => packWord 0x03 (bitField b) (BitVec.ofNat 16 i) 0
  | .bbWrf first count value =>
    packWord 0x04 (BitVec.ofNat 8 count) (BitVec.ofNat 16 first) (BitVec.ofNat 32 value)
  | .bbOctets => packWord 0x05 0 0 0
  | .frameDiscard => packWord 0x06 0 0 0
  | .frameInfo => packWord 0x07 0 0 0
  | .manNewPt => packWord 0x10 0 0 0
  | .manNewLens => packWord 0x11 0 0 0
  | .manNewAux => packWord 0x12 0 0 0
  | .manRecv r => packWord 0x13 0 0 (BitVec.ofInt 32 r)
  | .manPan v => packWord 0x14 0 0 (BitVec.ofInt 32 v)
  | .manTilt v => packWord 0x15 0 0 (BitVec.ofInt 32 v)
  | .manZoom v => packWord 0x16 0 0 (BitVec.ofInt 32 v)
  | .manFocus v => packWord 0x17 0 0 (BitVec.ofInt 32 v)
  | .manIris v => packWord 0x18 0 0 (BitVec.ofInt 32 v)
  | .manAux ch => packWord 0x19 0 0 (BitVec.ofInt 32 ch)
  | .vicNewStatus => packWord 0x20 0 0 0
  | .vicNewCmd => packWord 0x21 0 0 0
  | .vicNewSpeed => packWord 0x22 0 0 0
  | .vicRecv r => packWord 0x23 0 0 (BitVec.ofInt 32 r)
  | .vicPan v => packWord 0x24 0 0 (BitVec.ofInt 32 v)
  | .vicTilt v => packWord 0x25 0 0 (BitVec.ofInt 32 v)
  | .vicZoom v => packWord 0x26 0 0 (BitVec.ofInt 32 v)
  | .vicIris v => packWord 0x27 0 0 (BitVec.ofInt 32 v)
  | .vicFocus v => packWord 0x28 0 0 (BitVec.ofInt 32 v)
  | .vicAutoIris b => packWord 0x29 (bitField b) 0 0
  | .vicAutoPan b => packWord 0x2A (bitField b) 0 0
  | .vicLensSpeed b => packWord 0x2B (bitField b) 0 0
  | .vicAux ch b => packWord 0x2C (bitField b) 0 (BitVec.ofInt 32 ch)

/-! ### The opcode table (spec/opcode_table.json; R78: a word is legal exactly when `(W & mask) == match`) -/

/-- The table's spelling of an operation's name (R77). -/
def Instr.mnemonic : Instr → String
  | .bbNew _ => "BB.NEW"
  | .bbGet _ => "BB.GET"
  | .bbSet _ _ => "BB.SET"
  | .bbWrf _ _ _ => "BB.WRF"
  | .bbOctets => "BB.OCTETS"
  | .frameDiscard => "FRAME.DISCARD"
  | .frameInfo => "FRAME.INFO"
  | .manNewPt => "MAN.NEW.PT"
  | .manNewLens => "MAN.NEW.LENS"
  | .manNewAux => "MAN.NEW.AUX"
  | .manRecv _ => "MAN.RECV"
  | .manPan _ => "MAN.PAN"
  | .manTilt _ => "MAN.TILT"
  | .manZoom _ => "MAN.ZOOM"
  | .manFocus _ => "MAN.FOCUS"
  | .manIris _ => "MAN.IRIS"
  | .manAux _ => "MAN.AUX"
  | .vicNewStatus => "VIC.NEW.STATUS"
  | .vicNewCmd => "VIC.NEW.CMD"
  | .vicNewSpeed => "VIC.NEW.SPEED"
  | .vicRecv _ => "VIC.RECV"
  | .vicPan _ => "VIC.PAN"
  | .vicTilt _ => "VIC.TILT"
  | .vicZoom _ => "VIC.ZOOM"
  | .vicIris _ => "VIC.IRIS"
  | .vicFocus _ => "VIC.FOCUS"
  | .vicAutoIris _ => "VIC.AUTOIRIS"
  | .vicAutoPan _ => "VIC.AUTOPAN"
  | .vicLensSpeed _ => "VIC.LENSSPEED"
  | .vicAux _ _ => "VIC.AUX"

/-- A row of the opcode table: mnemonic, mask, match. -/
structure OpcodeRow where
  mnemonic : String
  mask : OpWord
  matchWord : OpWord
  deriving DecidableEq, Repr

/-- The thirty rows of spec/opcode_table.json, transcribed from it and not from the decoder. -/
def opcodeTable : List OpcodeRow :=
  [⟨"BB.NEW", 0xFFFFFFFF0000FFFF, 0x01⟩, ⟨"BB.GET", 0xFFFFFFFF0000FFFF, 0x02⟩,
    ⟨"BB.SET", 0xFFFFFFFF0000FEFF, 0x03⟩, ⟨"BB.WRF", 0x00000000000000FF, 0x04⟩,
    ⟨"BB.OCTETS", 0xFFFFFFFFFFFFFFFF, 0x05⟩, ⟨"FRAME.DISCARD", 0xFFFFFFFFFFFFFFFF, 0x06⟩,
    ⟨"FRAME.INFO", 0xFFFFFFFFFFFFFFFF, 0x07⟩, ⟨"MAN.NEW.PT", 0xFFFFFFFFFFFFFFFF, 0x10⟩,
    ⟨"MAN.NEW.LENS", 0xFFFFFFFFFFFFFFFF, 0x11⟩, ⟨"MAN.NEW.AUX", 0xFFFFFFFFFFFFFFFF, 0x12⟩,
    ⟨"MAN.RECV", 0x00000000FFFFFFFF, 0x13⟩, ⟨"MAN.PAN", 0x00000000FFFFFFFF, 0x14⟩,
    ⟨"MAN.TILT", 0x00000000FFFFFFFF, 0x15⟩, ⟨"MAN.ZOOM", 0x00000000FFFFFFFF, 0x16⟩,
    ⟨"MAN.FOCUS", 0x00000000FFFFFFFF, 0x17⟩, ⟨"MAN.IRIS", 0x00000000FFFFFFFF, 0x18⟩,
    ⟨"MAN.AUX", 0x00000000FFFFFFFF, 0x19⟩, ⟨"VIC.NEW.STATUS", 0xFFFFFFFFFFFFFFFF, 0x20⟩,
    ⟨"VIC.NEW.CMD", 0xFFFFFFFFFFFFFFFF, 0x21⟩, ⟨"VIC.NEW.SPEED", 0xFFFFFFFFFFFFFFFF, 0x22⟩,
    ⟨"VIC.RECV", 0x00000000FFFFFFFF, 0x23⟩, ⟨"VIC.PAN", 0x00000000FFFFFFFF, 0x24⟩,
    ⟨"VIC.TILT", 0x00000000FFFFFFFF, 0x25⟩, ⟨"VIC.ZOOM", 0x00000000FFFFFFFF, 0x26⟩,
    ⟨"VIC.IRIS", 0x00000000FFFFFFFF, 0x27⟩, ⟨"VIC.FOCUS", 0x00000000FFFFFFFF, 0x28⟩,
    ⟨"VIC.AUTOIRIS", 0xFFFFFFFFFFFFFEFF, 0x29⟩, ⟨"VIC.AUTOPAN", 0xFFFFFFFFFFFFFEFF, 0x2A⟩,
    ⟨"VIC.LENSSPEED", 0xFFFFFFFFFFFFFEFF, 0x2B⟩, ⟨"VIC.AUX", 0x00000000FFFFFEFF, 0x2C⟩]

end Sys2Proof
end

