-- ==== Sys2Proof/Config.lean ====
section
/-! DEFINITION. The configuration record CFG (00_scope.md R7), its legality, and the values it has at reset: the
defaults R7 states, and for the parameters R7 marks OPEN free values with no body (log entries 1, 2, 3). -/

namespace Sys2Proof

/-- `RANGE_POLICY` (R7): what a speed magnitude wider than its field does (90_conflicts.md C2). -/
inductive RangePolicy where
  /-- `STRICT`: the operation raises `RangeError`. -/
  | strict
  /-- `LEGACY`: the magnitude is truncated to its field. -/
  | legacy
  deriving DecidableEq, Repr

/-- `IRIS_POSITIVE` (R7): the side a positive iris input selects. -/
inductive IrisSide where
  /-- `OPEN` -/
  | opening
  /-- `CLOSE` -/
  | closing
  deriving DecidableEq, Repr

/-- `FOCUS_POSITIVE` (R7): the side a positive focus input selects. -/
inductive FocusSide where
  /-- `FAR` -/
  | far
  /-- `NEAR` -/
  | near
  deriving DecidableEq, Repr

/-- The configuration record CFG (R7): every parameter that is not a fixed constant. -/
structure Cfg where
  /-- `MAX_BITS`: how many bits FRAME has. -/
  maxBits : Nat
  /-- `VIC_CMD_BITS`: the width of a Vicon Command frame. -/
  vicCmdBits : Nat
  /-- `VIC_SPEED_BITS`: the width of a Vicon SpeedCommand frame. -/
  vicSpeedBits : Nat
  /-- `RANGE_POLICY` -/
  rangePolicy : RangePolicy
  /-- `MAN_PT_DISC`: bit 17 of a Manchester pan/tilt frame (30_encoding.md R63). -/
  manPtDisc : BitVec 1
  /-- `MAN_FC_LENS` (R64) -/
  manFcLens : BitVec 2
  /-- `MAN_FC_AUX` (R64) -/
  manFcAux : BitVec 2
  /-- `MAN_FC_RECALL` (R64, R133): no operation writes it. -/
  manFcRecall : BitVec 2
  /-- `MAN_FC_STORE` (R64, R133): no operation writes it. -/
  manFcStore : BitVec 2
  /-- `MAN_LC_IRIS_OPEN` (R65) -/
  manLcIrisOpen : BitVec 3
  /-- `MAN_LC_FOCUS_FAR` (R65) -/
  manLcFocusFar : BitVec 3
  /-- `MAN_LC_ZOOM_IN` (R65) -/
  manLcZoomIn : BitVec 3
  /-- `MAN_LC_IRIS_CLOSE` (R65) -/
  manLcIrisClose : BitVec 3
  /-- `MAN_LC_FOCUS_NEAR` (R65) -/
  manLcFocusNear : BitVec 3
  /-- `MAN_LC_ZOOM_OUT` (R65) -/
  manLcZoomOut : BitVec 3
  /-- `IRIS_POSITIVE` -/
  irisPositive : IrisSide
  /-- `FOCUS_POSITIVE` -/
  focusPositive : FocusSide
  deriving DecidableEq, Repr

/-- `MAN_BITS` (R7): the width of every Manchester frame, fixed. -/
def Config.manBits : Nat := 24

/-- `VIC_STATUS_BITS` (R7): the width of a Vicon Status frame, fixed. -/
def Config.vicStatusBits : Nat := 16

/-- The four Manchester function codes, in R7's order. -/
def Cfg.functionCodes (c : Cfg) : List (BitVec 2) :=
  [c.manFcLens, c.manFcAux, c.manFcRecall, c.manFcStore]

/-- The six Manchester lens sub-function codes, in R7's order. -/
def Cfg.lensCodes (c : Cfg) : List (BitVec 3) :=
  [c.manLcIrisOpen, c.manLcFocusFar, c.manLcZoomIn, c.manLcIrisClose, c.manLcFocusNear, c.manLcZoomOut]

/-- The legal values of CFG (R7, the column "legal values"). Four pairwise distinct 2-bit codes are a permutation of
0..3. -/
abbrev Cfg.Legal (c : Cfg) : Prop :=
  24 ≤ c.maxBits ∧ c.vicCmdBits ≤ c.maxBits ∧ c.vicSpeedBits ≤ c.maxBits ∧ c.maxBits ≤ 65535 ∧
    31 ≤ c.vicCmdBits ∧ 31 ≤ c.vicSpeedBits ∧ c.functionCodes.Nodup ∧ c.lensCodes.Nodup

/-- `MAN_PT_DISC` at reset: OPEN in R7, so a free value (log entry 2). -/
opaque Config.manPtDisc : BitVec 1

/-- The four function codes at reset: OPEN in R7, so a free permutation of 0..3 (log entry 2). -/
opaque Config.manFunctionCodes : Equiv.Perm (Fin 4)

/-- The six lens codes at reset: OPEN in R7, so free; the first six values of a free permutation of 0..7 are any six
pairwise distinct values in 0..7 (log entry 2). -/
opaque Config.manLensCodes : Equiv.Perm (Fin 8)

/-- CFG at reset: R7's defaults, and the free values for what R7 leaves OPEN (log entries 2, 3). -/
def Config.cfg : Cfg where
  maxBits := 65535
  vicCmdBits := 32
  vicSpeedBits := 64
  rangePolicy := .strict
  manPtDisc := Config.manPtDisc
  manFcLens := BitVec.ofFin (Config.manFunctionCodes 0)
  manFcAux := BitVec.ofFin (Config.manFunctionCodes 1)
  manFcRecall := BitVec.ofFin (Config.manFunctionCodes 2)
  manFcStore := BitVec.ofFin (Config.manFunctionCodes 3)
  manLcIrisOpen := BitVec.ofFin (Config.manLensCodes 0)
  manLcFocusFar := BitVec.ofFin (Config.manLensCodes 1)
  manLcZoomIn := BitVec.ofFin (Config.manLensCodes 2)
  manLcIrisClose := BitVec.ofFin (Config.manLensCodes 3)
  manLcFocusNear := BitVec.ofFin (Config.manLensCodes 4)
  manLcZoomOut := BitVec.ofFin (Config.manLensCodes 5)
  irisPositive := .opening
  focusPositive := .far

end Sys2Proof
end

