-- ==== Sys2Proof/Machine/State.lean ====
section
/-! DEFINITION. The state of the block (10_state.md R20-R24), the responses it gives (60_exceptions.md R180, R181), the
host's side of its port (R31, R194, R196), and the state after reset (R29, 70_reset_and_hazards.md R200). -/

namespace Sys2Proof.Machine

/-- `VARIANT` (R21): the kind of frame held. -/
inductive Variant where
  /-- `NONE`: no frame held -/
  | none
  /-- `RAW`: a bare BitBuffer made by `BB.NEW` -/
  | raw
  /-- `MAN_PT`: Manchester pan/tilt frame -/
  | manPt
  /-- `MAN_LENS`: Manchester lens frame -/
  | manLens
  /-- `MAN_AUX`: Manchester auxiliary frame -/
  | manAux
  /-- `VIC_STATUS`: Vicon Status (header-only) frame -/
  | vicStatus
  /-- `VIC_CMD`: Vicon Command frame -/
  | vicCmd
  /-- `VIC_SPEED`: Vicon SpeedCommand frame -/
  | vicSpeed
  deriving DecidableEq, Repr

/-- `FRAME` (R20): the bit-addressed frame register, as the indices of its 1 bits. Every index not listed reads 0
(R28). The canonical form, `Frame.Wf`, lists them strictly rising, so equal registers are equal data (log entry 8). -/
structure Frame where
  /-- The indices of the bits that are 1. -/
  ones : List Nat
  deriving DecidableEq, Repr

/-- A field write descriptor `(first, count, value)` (00_scope.md R12, 20_memory.md R42). -/
structure Descriptor where
  first : Nat
  count : Nat
  value : Nat
  deriving DecidableEq, Repr

/-- What an `OK` response carries (R180). -/
inductive RespData where
  /-- No data. -/
  | empty
  /-- One bit, from `BB.GET`. -/
  | bit (b : Bool)
  /-- The serialized frame, byte 0 first, from `BB.OCTETS`. -/
  | octets (bytes : List Byte)
  /-- The VARIANT code and WIDTH, from `FRAME.INFO`. -/
  | info (variant : BitVec 3) (width : Nat)
  deriving DecidableEq, Repr

/-- The error kinds with the info each records (R181). -/
inductive OpError where
  /-- `RangeError`: the rejected operand value. -/
  | rangeError (v : Int)
  /-- `OutOfRange`: the span of the first descriptor that failed. -/
  | outOfRange (first count : Nat)
  /-- `WrongVariant`: the VARIANT code held. -/
  | wrongVariant (code : BitVec 3)
  /-- `IllegalOp`: the OP byte. -/
  | illegalOp (op : BitVec 8)
  deriving DecidableEq, Repr

/-- The one response every operation ends with (R180). -/
inductive Response where
  /-- Code 0, `OK`. -/
  | ok (data : RespData)
  /-- Codes 1 to 4, with the error's info. -/
  | error (e : OpError)
  deriving DecidableEq, Repr

/-- Why the machine stops. An error response is no fault (R196). -/
inductive Fault where
  /-- Raised by `step` alone, when the host has no operation word left to issue: the run has ended (R196; log entry 6).
  Safe: nothing is claimed of a machine that is given nothing to do. -/
  | endOfRun
  deriving DecidableEq, Repr

/-- Why an instruction has no meaning in the model. -/
inductive Refusal where
  /-- An arm of `exec` without a meaning. No arm raises it: all thirty operations have their meaning. Safe. -/
  | notModelled (mnemonic : String)
  deriving DecidableEq, Repr

/-- The machine. `variant`, `width` and `frame` are the spec's whole architectural state (R20, R24); `cfg` is the
read-only configuration (R7; log entry 1); `requests` and `responses` are the host's side of the port (R31, R196; log
entries 4, 5). -/
structure State where
  /-- `VARIANT` (R21) -/
  variant : Variant
  /-- `WIDTH` (R22) -/
  width : Nat
  /-- `FRAME` (R20, R23) -/
  frame : Frame
  /-- CFG (R7): no operation writes it. -/
  cfg : Cfg
  /-- The operation words the host has yet to issue, next first (R31). -/
  requests : List OpWord
  /-- The responses given so far, oldest first (R196). No operation reads it (R30). -/
  responses : List Response
  deriving DecidableEq, Repr

/-- FRAME with every bit 0 (R28). -/
def Frame.zeros : Frame := ⟨[]⟩

/-- The machine right after reset under the configuration `c` (R29, R200), with nothing issued and nothing answered. -/
def State.resetWith (c : Cfg) : State where
  variant := .none
  width := 0
  frame := Frame.zeros
  cfg := c
  requests := []
  responses := []

/-- The machine right after reset (R29, R200). -/
def State.reset : State := State.resetWith Config.cfg

end Sys2Proof.Machine
end

