-- ==== Sys2Proof/Machine/Ops.lean ====
section
/-! DEFINITION. The named operations over the frame register and the port: reading a bit (20_memory.md R41), field
writes (R42), the span check (R43), Commit (R44), Octets (R45), making a frame (10_state.md R28), responding and raising
an error (60_exceptions.md R180, R186), and the checks every operation makes first (R187). The block has no trap
mechanism (R188): `raise` is what an error does, and there is nothing to return from. -/

namespace Sys2Proof.Machine

/-- What an operation gives: the outcome of a step. -/
abbrev Answer := Host.Outcome State Fault Refusal

/-! ### Codes -/

/-- The 3-bit code of a variant (R21). -/
def Variant.code : Variant → BitVec 3
  | .none => 0
  | .raw => 1
  | .manPt => 2
  | .manLens => 3
  | .manAux => 4
  | .vicStatus => 5
  | .vicCmd => 6
  | .vicSpeed => 7

/-- The response code (R180, R181). -/
def Response.code : Response → Nat
  | .ok _ => 0
  | .error (.rangeError _) => 1
  | .error (.outOfRange _ _) => 2
  | .error (.wrongVariant _) => 3
  | .error (.illegalOp _) => 4

/-! ### The frame register -/

/-- `FRAME[i]` (00_scope.md R11). -/
def Frame.bit (f : Frame) (i : Nat) : Bool := decide (i ∈ f.ones)

/-- The canonical form: indices strictly rising. -/
abbrev Frame.Wf (f : Frame) : Prop := f.ones.Pairwise (· < ·)

/-- Put an index into a strictly rising list. -/
def insertIndex (i : Nat) : List Nat → List Nat
  | [] => [i]
  | x :: xs => if i < x then i :: x :: xs else if i = x then x :: xs else x :: insertIndex i xs

/-- `FRAME[i] <- b` (R11). -/
def Frame.writeBit (f : Frame) (i : Nat) (b : Bool) : Frame :=
  if b then ⟨insertIndex i f.ones⟩ else ⟨f.ones.filter (fun x => !decide (x = i))⟩

/-- `FRAME[first+j] <- (value >> j) & 1` for `j` in `0 .. count-1` (R42). -/
def Frame.writeBits (f : Frame) (first value : Nat) : Nat → Frame
  | 0 => f
  | count + 1 => (f.writeBits first value count).writeBit (first + count) (value.testBit count)

/-- Write one descriptor (R42). -/
def Frame.write (f : Frame) (d : Descriptor) : Frame := f.writeBits d.first d.value d.count

/-- Write descriptors in list order: a later one overwrites an earlier one (R44). -/
def Frame.writeAll (f : Frame) : List Descriptor → Frame
  | [] => f
  | d :: ds => (f.write d).writeAll ds

/-- The integer whose bit `j` is `FRAME[first+j]`, for `j` in `0 .. count-1`: a field read back. -/
def Frame.field (f : Frame) (first : Nat) : Nat → Nat
  | 0 => 0
  | count + 1 => f.field first count + (if f.bit (first + count) then 2 ^ count else 0)

/-- A descriptor is in range exactly when `first + count <= WIDTH` (R43). -/
def Descriptor.fits (width : Nat) (d : Descriptor) : Bool := d.first + d.count ≤ width

/-- The first descriptor of the list that is out of range, if any (R44). -/
def firstUnfit (width : Nat) : List Descriptor → Option Descriptor
  | [] => none
  | d :: ds => if d.fits width then firstUnfit width ds else some d

/-! ### Serialization -/

/-- `byte[k]`: the sum over `j` in `0..7` with `8k+j < WIDTH` of `FRAME[8k+j] << j` (R45). -/
def octet (s : State) (k : Nat) : Byte :=
  BitVec.ofNat 8 (((List.range 8).map fun j =>
    if 8 * k + j < s.width ∧ s.frame.bit (8 * k + j) then 2 ^ j else 0).sum)

/-- `Octets()`: `ceil(WIDTH/8)` bytes, byte 0 first (R45). -/
def octets (s : State) : List Byte := (List.range ((s.width + 7) / 8)).map (octet s)

/-! ### Responses -/

/-- The state with one more response recorded (R180; log entry 5). -/
def State.answer (s : State) (r : Response) : State := { s with responses := s.responses ++ [r] }

/-- The state with FRAME replaced. -/
def State.withFrame (s : State) (f : Frame) : State := { s with frame := f }

/-- The state holding a frame of variant `v`, width `w` and bits `f`. -/
def State.hold (s : State) (v : Variant) (w : Nat) (f : Frame) : State :=
  { s with variant := v, width := w, frame := f }

/-- The effect of reset on a state: no frame held; CFG unchanged (R29, R200; log entry 13). -/
def State.resetBlock (s : State) : State := s.hold .none 0 Frame.zeros

/-- `respond OK(data)` (R12). -/
def respond (d : RespData) (s : State) : Answer := .next (s.answer (.ok d))

/-- `raise E(info)`: the operation ends with the error response and no other state changes (R12, R186). -/
def raise (e : OpError) (s : State) : Answer := .next (s.answer (.error e))

/-! ### The checks in their order (R187) and the two ways to write -/

/-- The variant check: in any variant but those listed the operation raises `WrongVariant` (R79, R184). -/
def onlyIn (vs : List Variant) (s : State) (k : Answer) : Answer :=
  if s.variant ∈ vs then k else raise (.wrongVariant s.variant.code) s

/-- An operand value check: raise `RangeError(v)` where `bad` holds (R182). -/
def rejectIf (bad : Bool) (v : Int) (s : State) (k : Answer) : Answer :=
  if bad then raise (.rangeError v) s else k

/-- `Commit` and then `respond OK`: every span is checked before anything is written (R44). -/
def commit (ds : List Descriptor) (s : State) : Answer :=
  match firstUnfit s.width ds with
  | some d => raise (.outOfRange d.first d.count) s
  | none => respond .empty (s.withFrame (s.frame.writeAll ds))

/-- Make a frame: VARIANT and WIDTH set, every bit cleared (R28), the fixed bits committed, then `respond OK`. The
spans are checked before anything changes (R187; log entry 10). -/
def newFrame (v : Variant) (w : Nat) (ds : List Descriptor) (s : State) : Answer :=
  match firstUnfit w ds with
  | some d => raise (.outOfRange d.first d.count) s
  | none => respond .empty (s.hold v w (Frame.zeros.writeAll ds))

end Sys2Proof.Machine
end

