-- ==== Sys2Proof/Machine/Flags.lean ====
section
/-! DEFINITION. The one-bit flags of the frame formats and the direction-flag pairs (30_encoding.md R61, R68, R69, R73;
42_vicon.md R154). The block has no condition flags (10_state.md R24): these are bits of FRAME. -/

namespace Sys2Proof.Machine

/-- `FLAG`: the frame-sync marker of every codec frame (R61, R68). -/
def FlagAt.sync : Nat := 7
/-- `DISC`: the pan/tilt-vs-other discriminator of a Manchester frame (R61). -/
def FlagAt.disc : Nat := 17
/-- `CMD`: the command-indicator bit of a Vicon frame (R68). -/
def FlagAt.cmd : Nat := 12
/-- `EXT`: the extended-mode flag of a Vicon frame (R68). -/
def FlagAt.ext : Nat := 14
/-- `AUTO_IRIS` (R69) -/
def FlagAt.autoIris : Nat := 17
/-- `AUTO_PAN` (R69) -/
def FlagAt.autoPan : Nat := 18
/-- `TILT_DOWN` (R69) -/
def FlagAt.tiltDown : Nat := 19
/-- `TILT_UP` (R69) -/
def FlagAt.tiltUp : Nat := 20
/-- `PAN_RIGHT` (R69) -/
def FlagAt.panRight : Nat := 21
/-- `PAN_LEFT` (R69) -/
def FlagAt.panLeft : Nat := 22
/-- `LENS_SPEED` (R69) -/
def FlagAt.lensSpeed : Nat := 24
/-- `IRIS_CLOSE` (R69) -/
def FlagAt.irisClose : Nat := 25
/-- `IRIS_OPEN` (R69) -/
def FlagAt.irisOpen : Nat := 26
/-- `FOCUS_NEAR` (R69) -/
def FlagAt.focusNear : Nat := 27
/-- `FOCUS_FAR` (R69) -/
def FlagAt.focusFar : Nat := 28
/-- `ZOOM_IN` (R69) -/
def FlagAt.zoomIn : Nat := 29
/-- `ZOOM_OUT` (R69) -/
def FlagAt.zoomOut : Nat := 30
/-- `AUXk` stands at bit `32 + k` (R69). -/
def FlagAt.aux (k : Nat) : Nat := 32 + k

/-- The descriptor that writes one flag. -/
def flagField (at_ : Nat) (b : Bool) : Descriptor := ⟨at_, 1, b.toNat⟩

/-- `Pair(neg, pos, v)` (R154): clear both flags, then set at most one by the sign of `v`. -/
def pair (neg pos : Nat) (v : Int) : List Descriptor :=
  [flagField neg false, flagField pos false] ++
    (if v < 0 then [flagField neg true] else []) ++
    (if v > 0 then [flagField pos true] else [])

end Sys2Proof.Machine
end

