-- ==== Sys2Proof/Machine/BitBuffer.lean ====
section
/-! DEFINITION. The BitBuffer and frame operations (40_bitbuffer.md R100-R106). -/

namespace Sys2Proof.Machine

/-- `BB.NEW n` (R100). -/
def execBbNew (n : Nat) (s : State) : Answer :=
  if n > s.cfg.maxBits then raise (.outOfRange 0 n) s else newFrame .raw n [] s

/-- `BB.GET i` (R101, R41). -/
def execBbGet (i : Nat) (s : State) : Answer :=
  if i ≥ s.width then raise (.outOfRange i 1) s else respond (.bit (s.frame.bit i)) s

/-- `BB.SET i, b` (R102). -/
def execBbSet (i : Nat) (b : Bool) (s : State) : Answer :=
  onlyIn [.raw] s (commit [flagField i b] s)

/-- `BB.WRF first, count, value` (R103). -/
def execBbWrf (first count value : Nat) (s : State) : Answer :=
  onlyIn [.raw] s (commit [⟨first, count, value⟩] s)

/-- `BB.OCTETS` (R104). -/
def execBbOctets (s : State) : Answer := respond (.octets (octets s)) s

/-- `FRAME.DISCARD` (R105). -/
def execFrameDiscard (s : State) : Answer := respond .empty s.resetBlock

/-- `FRAME.INFO` (R106). -/
def execFrameInfo (s : State) : Answer := respond (.info s.variant.code s.width) s

end Sys2Proof.Machine
end

