-- ==== Sys2Proof/Machine/Operands.lean ====
section
/-! DEFINITION. The multi-bit fields of the frame formats and the operand arithmetic that fills them (30_encoding.md
R61-R66, R68, R70; 00_scope.md R8, R10). -/

namespace Sys2Proof.Machine

/-! ### Operand checks (60_exceptions.md R182) -/

/-- A receiver is outside 1..255 (R8). -/
def badReceiver (r : Int) : Bool := r < 1 ∨ r > 255

/-- An auxiliary channel is outside 1..6 (R66, R163). -/
def badChannel (ch : Int) : Bool := ch < 1 ∨ ch > 6

/-- A Manchester speed is too wide under `STRICT`: `abs(v) > 7` (R124, R125). -/
def badManSpeed (c : Cfg) (v : Int) : Bool := c.rangePolicy = .strict ∧ v.natAbs > 7

/-- A Vicon speed is too wide under `STRICT`: `abs(v) >> 7 > 15` (R155, R156). -/
def badVicSpeed (c : Cfg) (v : Int) : Bool := c.rangePolicy = .strict ∧ v.natAbs >>> 7 > 15

/-! ### Manchester fields (R61) -/

/-- `F2`, two bits at 12: the direction code or the function code (R64). -/
def manF2 (code : Nat) : Descriptor := ⟨12, 2, code⟩

/-- `F3`, three bits at 9: the speed, the sub-function code or the auxiliary mask (R65). -/
def manF3 (code : Nat) : Descriptor := ⟨9, 3, code⟩

/-- The three pieces of `z = receiver - 1`: `RH`, `RM`, `RL` (R62). -/
def manReceiverFields (z : Nat) : List Descriptor :=
  [⟨0, 2, z >>> 6⟩, ⟨8, 1, (z >>> 5) &&& 1⟩, ⟨18, 5, z &&& 0x1F⟩]

/-- The decoder of R62 (90_conflicts.md C4): `((RH << 6) | (RM << 5) | RL) + 1`. -/
def manReceiver (f : Frame) : Nat := ((f.field 0 2 <<< 6) ||| (f.field 8 1 <<< 5) ||| f.field 18 5) + 1

/-- Direction code of tilt-down (R8, R64). -/
def DirCode.tiltDown : Nat := 0
/-- Direction code of tilt-up (R8, R64). -/
def DirCode.tiltUp : Nat := 1
/-- Direction code of pan-left (R8, R64). -/
def DirCode.panLeft : Nat := 2
/-- Direction code of pan-right (R8, R64). -/
def DirCode.panRight : Nat := 3

/-- The descriptors of a Manchester move (R124, R125): a direction code by the sign of `v`, none for zero, and then the
speed `abs(v) mod 8`. -/
def manMoveFields (neg pos : Nat) (v : Int) : List Descriptor :=
  (if v < 0 then [manF2 neg] else []) ++ (if v > 0 then [manF2 pos] else []) ++ [manF3 (v.natAbs % 8)]

/-- `AUX_MASK = {1:2, 2:4, 3:6, 4:3, 5:5, 6:7}` (R8, R66); 0 off the table, which no operation reaches. -/
def auxMask : Nat → Nat
  | 1 => 2
  | 2 => 4
  | 3 => 6
  | 4 => 3
  | 5 => 5
  | 6 => 7
  | _ => 0

/-- The lens code of a focus input: `far = (v > 0) = (FOCUS_POSITIVE = FAR)` (R128). -/
def focusCode (c : Cfg) (v : Int) : BitVec 3 :=
  if decide (v > 0) = decide (c.focusPositive = .far) then c.manLcFocusFar else c.manLcFocusNear

/-- The lens code of an iris input: `open = (v > 0) = (IRIS_POSITIVE = OPEN)` (R129). -/
def irisCode (c : Cfg) (v : Int) : BitVec 3 :=
  if decide (v > 0) = decide (c.irisPositive = .opening) then c.manLcIrisOpen else c.manLcIrisClose

/-! ### Vicon fields (R68, R70) -/

/-- The two nibbles of the receiver: `RHN` at 0 and `RLN` at 8 (R68). -/
def vicReceiverFields (r : Nat) : List Descriptor := [⟨0, 4, r >>> 4⟩, ⟨8, 4, r &&& 0xF⟩]

/-- The receiver a Vicon frame carries: `(RHN << 4) | RLN` (R72). -/
def vicReceiver (f : Frame) : Nat := (f.field 0 4 <<< 4) ||| f.field 8 4

/-- The speed fields of a SpeedCommand axis (R70): `abs(v) >> 7` in 4 bits and `abs(v) & 0x7F` in 7 bits. -/
def vicSpeedFields (hiAt loAt : Nat) (v : Int) : List Descriptor :=
  [⟨hiAt, 4, (v.natAbs >>> 7) % 16⟩, ⟨loAt, 7, v.natAbs &&& 0x7F⟩]

end Sys2Proof.Machine
end

