-- ==== Sys2Proof/Machine/Manchester.lean ====
section
/-! DEFINITION. The Manchester encoder operations (41_manchester.md R120-R131). Presets have no operation (R133). -/

namespace Sys2Proof.Machine

/-- A new Manchester frame: the sync flag, the discriminator, and what else the variant fixes (R120-R122). -/
def newManchester (v : Variant) (disc : BitVec 1) (ds : List Descriptor) (s : State) : Answer :=
  newFrame v Config.manBits ([flagField FlagAt.sync true, ⟨FlagAt.disc, 1, disc.toNat⟩] ++ ds) s

/-- `MAN.NEW.PT` (R120). -/
def execManNewPt (s : State) : Answer := newManchester .manPt s.cfg.manPtDisc [] s

/-- `MAN.NEW.LENS` (R121): the discriminator is the complement of a pan/tilt frame's (R63). -/
def execManNewLens (s : State) : Answer :=
  newManchester .manLens (~~~s.cfg.manPtDisc) [manF2 s.cfg.manFcLens.toNat] s

/-- `MAN.NEW.AUX` (R122). -/
def execManNewAux (s : State) : Answer :=
  newManchester .manAux (~~~s.cfg.manPtDisc) [manF2 s.cfg.manFcAux.toNat] s

/-- `MAN.RECV r` (R123): `z = r - 1`. -/
def execManRecv (r : Int) (s : State) : Answer :=
  onlyIn [.manPt, .manLens, .manAux] s
    (rejectIf (badReceiver r) r s (commit (manReceiverFields (r - 1).toNat) s))

/-- A pan or tilt of a Manchester frame, with the direction codes of its axis (R124, R125). -/
def manMove (neg pos : Nat) (v : Int) (s : State) : Answer :=
  onlyIn [.manPt] s (rejectIf (badManSpeed s.cfg v) v s (commit (manMoveFields neg pos v) s))

/-- `MAN.PAN v` (R124). -/
def execManPan (v : Int) (s : State) : Answer := manMove DirCode.panLeft DirCode.panRight v s

/-- `MAN.TILT v` (R125). -/
def execManTilt (v : Int) (s : State) : Answer := manMove DirCode.tiltDown DirCode.tiltUp v s

/-- A lens function of a Manchester frame: a zero input writes nothing, any other writes the code (R127-R129, D16). -/
def manLens (code : BitVec 3) (v : Int) (s : State) : Answer :=
  onlyIn [.manLens] s (if v = 0 then respond .empty s else commit [manF3 code.toNat] s)

/-- `MAN.ZOOM v` (R127). -/
def execManZoom (v : Int) (s : State) : Answer :=
  manLens (if v > 0 then s.cfg.manLcZoomIn else s.cfg.manLcZoomOut) v s

/-- `MAN.FOCUS v` (R128). -/
def execManFocus (v : Int) (s : State) : Answer := manLens (focusCode s.cfg v) v s

/-- `MAN.IRIS v` (R129). -/
def execManIris (v : Int) (s : State) : Answer := manLens (irisCode s.cfg v) v s

/-- `MAN.AUX ch` (R131). -/
def execManAux (ch : Int) (s : State) : Answer :=
  onlyIn [.manAux] s (rejectIf (badChannel ch) ch s (commit [manF3 (auxMask ch.toNat)] s))

end Sys2Proof.Machine
end

