-- ==== Sys2Proof/Machine/Vicon.lean ====
section
/-! DEFINITION. The Vicon encoder operations (42_vicon.md R150-R163). -/

namespace Sys2Proof.Machine

/-- `VIC.NEW.STATUS` (R150). -/
def execVicNewStatus (s : State) : Answer :=
  newFrame .vicStatus Config.vicStatusBits [flagField FlagAt.sync true] s

/-- `VIC.NEW.CMD` (R151). -/
def execVicNewCmd (s : State) : Answer :=
  newFrame .vicCmd s.cfg.vicCmdBits [flagField FlagAt.sync true, flagField FlagAt.cmd true] s

/-- `VIC.NEW.SPEED` (R152). -/
def execVicNewSpeed (s : State) : Answer :=
  newFrame .vicSpeed s.cfg.vicSpeedBits
    [flagField FlagAt.sync true, flagField FlagAt.cmd true, flagField FlagAt.ext true] s

/-- `VIC.RECV r` (R153). -/
def execVicRecv (r : Int) (s : State) : Answer :=
  onlyIn [.vicStatus, .vicCmd, .vicSpeed] s
    (rejectIf (badReceiver r) r s (commit (vicReceiverFields r.toNat) s))

/-- A pan or tilt: the direction pair, and in a SpeedCommand frame the speed fields too (R155, R156). -/
def vicMove (neg pos hiAt loAt : Nat) (v : Int) (s : State) : Answer :=
  onlyIn [.vicCmd, .vicSpeed] s
    (if s.variant = .vicSpeed then
      rejectIf (badVicSpeed s.cfg v) v s (commit (pair neg pos v ++ vicSpeedFields hiAt loAt v) s)
    else commit (pair neg pos v) s)

/-- `VIC.PAN v` (R155). -/
def execVicPan (v : Int) (s : State) : Answer := vicMove FlagAt.panLeft FlagAt.panRight 48 56 v s

/-- `VIC.TILT v` (R156). -/
def execVicTilt (v : Int) (s : State) : Answer := vicMove FlagAt.tiltDown FlagAt.tiltUp 64 72 v s

/-- A setter that commits its descriptors to any Vicon command frame and checks no operand (R157-R162). -/
def vicSet (ds : List Descriptor) (s : State) : Answer := onlyIn [.vicCmd, .vicSpeed] s (commit ds s)

/-- `VIC.ZOOM v` (R157). -/
def execVicZoom (v : Int) (s : State) : Answer := vicSet (pair FlagAt.zoomOut FlagAt.zoomIn v) s

/-- `VIC.IRIS v` (R158). -/
def execVicIris (v : Int) (s : State) : Answer :=
  match s.cfg.irisPositive with
  | .opening => vicSet (pair FlagAt.irisClose FlagAt.irisOpen v) s
  | .closing => vicSet (pair FlagAt.irisOpen FlagAt.irisClose v) s

/-- `VIC.FOCUS v` (R159). -/
def execVicFocus (v : Int) (s : State) : Answer :=
  match s.cfg.focusPositive with
  | .far => vicSet (pair FlagAt.focusNear FlagAt.focusFar v) s
  | .near => vicSet (pair FlagAt.focusFar FlagAt.focusNear v) s

/-- `VIC.AUTOIRIS b` (R160). -/
def execVicAutoIris (b : Bool) (s : State) : Answer := vicSet [flagField FlagAt.autoIris b] s

/-- `VIC.AUTOPAN b` (R161). -/
def execVicAutoPan (b : Bool) (s : State) : Answer := vicSet [flagField FlagAt.autoPan b] s

/-- `VIC.LENSSPEED b` (R162). -/
def execVicLensSpeed (b : Bool) (s : State) : Answer := vicSet [flagField FlagAt.lensSpeed b] s

/-- `VIC.AUX ch, b` (R163). -/
def execVicAux (ch : Int) (b : Bool) (s : State) : Answer :=
  onlyIn [.vicCmd, .vicSpeed] s
    (rejectIf (badChannel ch) ch s (commit [flagField (FlagAt.aux ch.toNat) b] s))

end Sys2Proof.Machine
end

