-- ==== Sys2Proof/Machine/Dispatch.lean ====
section
/-! DEFINITION. exec: one arm per operation, each one direct call of its meaning. -/

namespace Sys2Proof.Machine

def exec (i : Instr) (s : State) : Host.Outcome State Fault Refusal :=
  match i with
  | .bbNew n => Sys2Proof.Machine.execBbNew n s
  | .bbGet k => Sys2Proof.Machine.execBbGet k s
  | .bbSet k b => Sys2Proof.Machine.execBbSet k b s
  | .bbWrf first count value => Sys2Proof.Machine.execBbWrf first count value s
  | .bbOctets => Sys2Proof.Machine.execBbOctets s
  | .frameDiscard => Sys2Proof.Machine.execFrameDiscard s
  | .frameInfo => Sys2Proof.Machine.execFrameInfo s
  | .manNewPt => Sys2Proof.Machine.execManNewPt s
  | .manNewLens => Sys2Proof.Machine.execManNewLens s
  | .manNewAux => Sys2Proof.Machine.execManNewAux s
  | .manRecv r => Sys2Proof.Machine.execManRecv r s
  | .manPan v => Sys2Proof.Machine.execManPan v s
  | .manTilt v => Sys2Proof.Machine.execManTilt v s
  | .manZoom v => Sys2Proof.Machine.execManZoom v s
  | .manFocus v => Sys2Proof.Machine.execManFocus v s
  | .manIris v => Sys2Proof.Machine.execManIris v s
  | .manAux ch => Sys2Proof.Machine.execManAux ch s
  | .vicNewStatus => Sys2Proof.Machine.execVicNewStatus s
  | .vicNewCmd => Sys2Proof.Machine.execVicNewCmd s
  | .vicNewSpeed => Sys2Proof.Machine.execVicNewSpeed s
  | .vicRecv r => Sys2Proof.Machine.execVicRecv r s
  | .vicPan v => Sys2Proof.Machine.execVicPan v s
  | .vicTilt v => Sys2Proof.Machine.execVicTilt v s
  | .vicZoom v => Sys2Proof.Machine.execVicZoom v s
  | .vicIris v => Sys2Proof.Machine.execVicIris v s
  | .vicFocus v => Sys2Proof.Machine.execVicFocus v s
  | .vicAutoIris b => Sys2Proof.Machine.execVicAutoIris b s
  | .vicAutoPan b => Sys2Proof.Machine.execVicAutoPan b s
  | .vicLensSpeed b => Sys2Proof.Machine.execVicLensSpeed b s
  | .vicAux ch b => Sys2Proof.Machine.execVicAux ch b s

end Sys2Proof.Machine
end

