-- ==== Sys2Proof/Machine/Port.lean ====
section
/-! DEFINITION. The block's port: what it does with one operation word (60_exceptions.md R187), taking the host's next
word (10_state.md R31), and loading a program from outside (log entry 7). -/

namespace Sys2Proof.Machine

/-- The host's program stands before the words it had yet to issue (R31; log entry 7). -/
def State.load (s : State) (ws : List OpWord) : State := { s with requests := ws ++ s.requests }

/-- The host's index `k` (R31): how many words have been answered. -/
def State.position (s : State) : Nat := s.responses.length

/-- Execute one operation word: an illegal word raises `IllegalOp(OP)` before any other check (R78, R185, R187). -/
def serve (w : OpWord) (s : State) : Answer :=
  match decode w with
  | .ok i => exec i s
  | .error _ => raise (.illegalOp (opOf w)) s

/-- Take the host's next word and execute it; with no word left the run has ended (R31, R196; log entry 6). -/
def takeRequest (s : State) : Answer :=
  match s.requests with
  | [] => .fault .endOfRun
  | w :: rest => serve w { s with requests := rest }

end Sys2Proof.Machine
end

