-- ==== Sys2Proof/Machine/Step.lean ====
section
/-! DEFINITION. One step of the machine is one operation (70_reset_and_hazards.md R211). -/

namespace Sys2Proof.Machine

/-- One step: the host's next operation word, executed completely (00_scope.md R6). -/
def step (s : State) : Host.Outcome State Fault Refusal := takeRequest s

/-- `s` with the table word `w` as the word the host issues next (log entry 7). -/
def State.withFetchWord (s : State) (nbits w : Nat) : State := s.load [tableWord nbits w]

end Sys2Proof.Machine
end

