-- ==== Sys2Proof/Machine/Assembler.lean ====
section
/-! DEFINITION. The assembler (30_encoding.md R81) and the pseudo-instructions (R82): one line of text to one operation.
It stands on the host's side of the port; a rejected line never reaches the block. White space and the case of
hexadecimal digits are the model's choice (log entry 11). -/

namespace Sys2Proof.Machine

/-- A decimal digit. -/
def decDigit (c : Char) : Option Nat :=
  if '0'.toNat ≤ c.toNat ∧ c.toNat ≤ '9'.toNat then some (c.toNat - '0'.toNat) else none

/-- A hexadecimal digit, in either case. -/
def hexDigit (c : Char) : Option Nat :=
  if 'a'.toNat ≤ c.toNat ∧ c.toNat ≤ 'f'.toNat then some (c.toNat - 'a'.toNat + 10)
  else if 'A'.toNat ≤ c.toNat ∧ c.toNat ≤ 'F'.toNat then some (c.toNat - 'A'.toNat + 10)
  else decDigit c

/-- The digits of a number in a base, most significant first. -/
def digits (base : Nat) (digit : Char → Option Nat) (acc : Nat) : List Char → Option Nat
  | [] => some acc
  | c :: cs =>
    match digit c with
    | some d => digits base digit (acc * base + d) cs
    | none => none

/-- "Numbers are decimal, with an optional leading `-`, or hexadecimal with `0x`" (R81). -/
def asmNumber : List Char → Option Int
  | [] => none
  | ['-'] => none
  | ['0', 'x'] => none
  | '-' :: cs => (digits 10 decDigit 0 cs).map fun (n : Nat) => -(n : Int)
  | '0' :: 'x' :: cs => (digits 16 hexDigit 0 cs).map fun (n : Nat) => (n : Int)
  | cs => (digits 10 decDigit 0 cs).map fun (n : Nat) => (n : Int)

/-- Cut a list at every comma. -/
def splitCommas : List Char → List (List Char)
  | [] => [[]]
  | c :: cs =>
    match splitCommas cs with
    | [] => [[c]]
    | piece :: rest => if c = ',' then [] :: piece :: rest else (c :: piece) :: rest

/-- The text without the spaces around it. -/
def trimSpaces (cs : List Char) : List Char :=
  ((cs.dropWhile (· = ' ')).reverse.dropWhile (· = ' ')).reverse

/-- Every member read, or none. -/
def allNumbers : List (List Char) → Option (List Int)
  | [] => some []
  | p :: ps =>
    match asmNumber (trimSpaces p), allNumbers ps with
    | some n, some ns => some (n :: ns)
    | _, _ => none

/-- The comma-separated operands of a line; an operation without operands has an empty rest. -/
def asmOperands (cs : List Char) : Option (List Int) :=
  if trimSpaces cs = [] then some [] else allNumbers (splitCommas cs)

/-- An unsigned operand. -/
def unsignedOperand (v : Int) : Option Nat := if 0 ≤ v then some v.toNat else none

/-- A one-bit operand, 0 or 1 (R81). -/
def bitOperand (v : Int) : Option Bool := if v = 0 then some false else if v = 1 then some true else none

/-- No operand. -/
def noOperand (i : Instr) : List Int → Option Instr
  | [] => some i
  | _ => none

/-- One unsigned operand. -/
def oneUnsigned (mk : Nat → Instr) : List Int → Option Instr
  | [n] => (unsignedOperand n).map mk
  | _ => none

/-- One signed operand. -/
def oneSigned (mk : Int → Instr) : List Int → Option Instr
  | [v] => some (mk v)
  | _ => none

/-- One one-bit operand. -/
def oneBit (mk : Bool → Instr) : List Int → Option Instr
  | [b] => (bitOperand b).map mk
  | _ => none

/-- `BB.SET i, b`. -/
def unsignedBit (mk : Nat → Bool → Instr) : List Int → Option Instr
  | [i, b] => (unsignedOperand i).bind fun n => (bitOperand b).map (mk n)
  | _ => none

/-- `VIC.AUX ch, b`. -/
def signedBit (mk : Int → Bool → Instr) : List Int → Option Instr
  | [ch, b] => (bitOperand b).map (mk ch)
  | _ => none

/-- `BB.WRF first, count, value`. -/
def threeUnsigned (mk : Nat → Nat → Nat → Instr) : List Int → Option Instr
  | [a, b, c] =>
    (unsignedOperand a).bind fun x => (unsignedOperand b).bind fun y => (unsignedOperand c).map (mk x y)
  | _ => none

/-- The mnemonics with their operands in R81's order, and the four pseudo-instructions of R82, before the range
check. -/
def asmForm (mnemonic : String) (ops : List Int) : Option Instr :=
  match mnemonic with
  | "BB.NEW" => oneUnsigned .bbNew ops
  | "BB.GET" => oneUnsigned .bbGet ops
  | "BB.SET" => unsignedBit .bbSet ops
  | "BB.WRF" => threeUnsigned .bbWrf ops
  | "BB.OCTETS" => noOperand .bbOctets ops
  | "FRAME.DISCARD" => noOperand .frameDiscard ops
  | "FRAME.INFO" => noOperand .frameInfo ops
  | "MAN.NEW.PT" => noOperand .manNewPt ops
  | "MAN.NEW.LENS" => noOperand .manNewLens ops
  | "MAN.NEW.AUX" => noOperand .manNewAux ops
  | "MAN.RECV" => oneSigned .manRecv ops
  | "MAN.PAN" => oneSigned .manPan ops
  | "MAN.TILT" => oneSigned .manTilt ops
  | "MAN.ZOOM" => oneSigned .manZoom ops
  | "MAN.FOCUS" => oneSigned .manFocus ops
  | "MAN.IRIS" => oneSigned .manIris ops
  | "MAN.AUX" => oneSigned .manAux ops
  | "VIC.NEW.STATUS" => noOperand .vicNewStatus ops
  | "VIC.NEW.CMD" => noOperand .vicNewCmd ops
  | "VIC.NEW.SPEED" => noOperand .vicNewSpeed ops
  | "VIC.RECV" => oneSigned .vicRecv ops
  | "VIC.PAN" => oneSigned .vicPan ops
  | "VIC.TILT" => oneSigned .vicTilt ops
  | "VIC.ZOOM" => oneSigned .vicZoom ops
  | "VIC.IRIS" => oneSigned .vicIris ops
  | "VIC.FOCUS" => oneSigned .vicFocus ops
  | "VIC.AUTOIRIS" => oneBit .vicAutoIris ops
  | "VIC.AUTOPAN" => oneBit .vicAutoPan ops
  | "VIC.LENSSPEED" => oneBit .vicLensSpeed ops
  | "VIC.AUX" => signedBit .vicAux ops
  | "BB.CLR" => oneUnsigned (fun i => .bbSet i false) ops
  | "BB.ONE" => oneUnsigned (fun i => .bbSet i true) ops
  | "VIC.AUXON" => oneSigned (fun ch => .vicAux ch true) ops
  | "VIC.AUXOFF" => oneSigned (fun ch => .vicAux ch false) ops
  | _ => none

/-- "An assembler rejects an operand that does not fit its field" (R81). -/
def assemble (mnemonic : String) (ops : List Int) : Option Instr :=
  (asmForm mnemonic ops).bind fun i => if i.wf then some i else none

/-- The mnemonic, a space, and the operands separated by commas (R81). -/
def assembleChars (cs : List Char) : Option Instr :=
  match asmOperands ((trimSpaces cs).dropWhile (· ≠ ' ')) with
  | some ops => assemble (String.ofList ((trimSpaces cs).takeWhile (· ≠ ' '))) ops
  | none => none

/-- One line of assembler text to one operation (R81). -/
def assembleLine (line : String) : Option Instr := assembleChars line.toList

end Sys2Proof.Machine
end

