-- ==== Sys2Proof/Safety.lean ====
section
/-! DEFINITION. The terms claims are stated in: the invariants of the state (10_state.md R22-R27, 30_encoding.md R61-R72),
the tables of who accepts what and what is rejected (R79, 60_exceptions.md R182, R183, R187), and what one operation may
change. A safe state is one that meets `State.Inv`. -/

namespace Sys2Proof.Machine

/-! ### The kinds of variant (00_scope.md R15) -/

/-- A Manchester frame of any variant. -/
def Variant.isManchester : Variant → Bool
  | .manPt => true
  | .manLens => true
  | .manAux => true
  | _ => false

/-- A Vicon frame with command bits. -/
def Variant.isViconCommand : Variant → Bool
  | .vicCmd => true
  | .vicSpeed => true
  | _ => false

/-- A Vicon frame of any variant. -/
def Variant.isVicon (v : Variant) : Bool := v = .vicStatus || v.isViconCommand

/-- A codec frame: any Manchester or Vicon variant (R15). -/
def Variant.isCodec (v : Variant) : Bool := v.isManchester || v.isVicon

/-! ### Invariants -/

/-- The width of a variant's frame (R22); a raw frame has the width it was made with. -/
def Cfg.frameWidth (c : Cfg) : Variant → Option Nat
  | .none => some 0
  | .raw => none
  | .manPt => some 24
  | .manLens => some 24
  | .manAux => some 24
  | .vicStatus => some 16
  | .vicCmd => some c.vicCmdBits
  | .vicSpeed => some c.vicSpeedBits

/-- WIDTH is the width of the variant held (R22). -/
abbrev State.WidthOk (s : State) : Prop :=
  Cfg.frameWidth s.cfg s.variant = none ∨ Cfg.frameWidth s.cfg s.variant = some s.width

/-- CFG is legal (R7) and WIDTH is the width of the variant held (R22). -/
abbrev State.Sized (s : State) : Prop := s.cfg.Legal ∧ s.WidthOk

/-- WIDTH is at most MAX_BITS (R20). -/
abbrev State.WidthBounded (s : State) : Prop := s.width ≤ s.cfg.maxBits

/-- No bit at or above WIDTH is 1 (R23). -/
abbrev State.BitsWithin (s : State) : Prop := ∀ i ∈ s.frame.ones, i < s.width

/-- In a codec frame the sync flag is 1 (R26). -/
abbrev State.SyncSet (s : State) : Prop := s.variant.isCodec = true → s.frame.bit 7 = true

/-- The direction-flag pairs (R27): pan, tilt, zoom, iris, focus. -/
def directionPairs : List (Nat × Nat) := [(22, 21), (19, 20), (29, 30), (26, 25), (27, 28)]

/-- In a Vicon command frame no direction pair has both flags set (R27, 42_vicon.md R164). -/
abbrev State.PairsExclusive (s : State) : Prop :=
  s.variant.isViconCommand = true → ∀ p ∈ directionPairs, ¬ (s.frame.bit p.1 = true ∧ s.frame.bit p.2 = true)

/-- The bits of a variant's frame that no field uses, or that the variant fixes at 0 (R61, R68-R70). -/
def Variant.unusedBit : Variant → Nat → Bool
  | .none, _ => true
  | .raw, _ => false
  | .vicStatus, i => (4 ≤ i ∧ i ≤ 6) ∨ 12 ≤ i
  | .vicCmd, i => (4 ≤ i ∧ i ≤ 6) ∨ (13 ≤ i ∧ i ≤ 16) ∨ i = 23 ∨ i = 31 ∨ i = 32 ∨ 39 ≤ i
  | .vicSpeed, i =>
    (4 ≤ i ∧ i ≤ 6) ∨ i = 13 ∨ i = 15 ∨ i = 16 ∨ i = 23 ∨ i = 31 ∨ i = 32 ∨ (39 ≤ i ∧ i ≤ 47) ∨
      (52 ≤ i ∧ i ≤ 55) ∨ i = 63 ∨ (68 ≤ i ∧ i ≤ 71) ∨ 79 ≤ i
  | _, i => (2 ≤ i ∧ i ≤ 6) ∨ (14 ≤ i ∧ i ≤ 16) ∨ 23 ≤ i

/-- Every unused bit of a codec frame is 0 (R61, R68-R70). -/
abbrev State.UnusedZero (s : State) : Prop := ∀ i ∈ s.frame.ones, s.variant.unusedBit i = false

/-- The fields a variant fixes: DISC and the function code (R63, R64), CMD and EXT (R68). -/
def State.fixedFields (s : State) : Bool :=
  match s.variant with
  | .manPt => s.frame.bit 17 = s.cfg.manPtDisc.getLsbD 0
  | .manLens => s.frame.bit 17 = !s.cfg.manPtDisc.getLsbD 0 ∧ s.frame.field 12 2 = s.cfg.manFcLens.toNat
  | .manAux => s.frame.bit 17 = !s.cfg.manPtDisc.getLsbD 0 ∧ s.frame.field 12 2 = s.cfg.manFcAux.toNat
  | .vicCmd => s.frame.bit 12
  | .vicSpeed => s.frame.bit 12 ∧ s.frame.bit 14
  | _ => true

/-- `F3` of a lens frame is 0 or one of the six codes (R65, R121); of an auxiliary frame 0 or a mask of R66 (R122). -/
def State.fieldCodes (s : State) : Bool :=
  match s.variant with
  | .manLens => s.frame.field 9 3 = 0 ∨ s.frame.field 9 3 ∈ s.cfg.lensCodes.map BitVec.toNat
  | .manAux => s.frame.field 9 3 ∈ [0, 2, 4, 6, 3, 5, 7]
  | _ => true

/-- What every step keeps: all of the above, and the canonical form of FRAME (log entry 8). -/
abbrev State.Inv (s : State) : Prop :=
  s.cfg.Legal ∧ s.frame.Wf ∧ s.WidthOk ∧ s.WidthBounded ∧ s.BitsWithin ∧ s.SyncSet ∧ s.PairsExclusive ∧
    s.UnusedZero ∧ s.fixedFields = true ∧ s.fieldCodes = true

/-! ### The tables of the error responses -/

/-- The variants an operation is accepted in (R79); none stands for every variant. -/
def acceptedIn : Instr → Option (List Variant)
  | .bbSet _ _ => some [.raw]
  | .bbWrf _ _ _ => some [.raw]
  | .manRecv _ => some [.manPt, .manLens, .manAux]
  | .manPan _ => some [.manPt]
  | .manTilt _ => some [.manPt]
  | .manZoom _ => some [.manLens]
  | .manFocus _ => some [.manLens]
  | .manIris _ => some [.manLens]
  | .manAux _ => some [.manAux]
  | .vicRecv _ => some [.vicStatus, .vicCmd, .vicSpeed]
  | .vicPan _ => some [.vicCmd, .vicSpeed]
  | .vicTilt _ => some [.vicCmd, .vicSpeed]
  | .vicZoom _ => some [.vicCmd, .vicSpeed]
  | .vicIris _ => some [.vicCmd, .vicSpeed]
  | .vicFocus _ => some [.vicCmd, .vicSpeed]
  | .vicAutoIris _ => some [.vicCmd, .vicSpeed]
  | .vicAutoPan _ => some [.vicCmd, .vicSpeed]
  | .vicLensSpeed _ => some [.vicCmd, .vicSpeed]
  | .vicAux _ _ => some [.vicCmd, .vicSpeed]
  | _ => none

/-- `WrongVariant` (R184). -/
def variantError (i : Instr) (s : State) : Option OpError :=
  match acceptedIn i with
  | some vs => if s.variant ∈ vs then none else some (.wrongVariant s.variant.code)
  | none => none

/-- Every cause of `RangeError` (R182). -/
def rangeErrorOf (i : Instr) (s : State) : Option OpError :=
  match i with
  | .manRecv r => if 1 ≤ r ∧ r ≤ 255 then none else some (.rangeError r)
  | .manPan v => if s.cfg.rangePolicy = .strict ∧ 7 < v.natAbs then some (.rangeError v) else none
  | .manTilt v => if s.cfg.rangePolicy = .strict ∧ 7 < v.natAbs then some (.rangeError v) else none
  | .manAux ch => if 1 ≤ ch ∧ ch ≤ 6 then none else some (.rangeError ch)
  | .vicRecv r => if 1 ≤ r ∧ r ≤ 255 then none else some (.rangeError r)
  | .vicPan v =>
    if s.variant = .vicSpeed ∧ s.cfg.rangePolicy = .strict ∧ 2047 < v.natAbs then some (.rangeError v) else none
  | .vicTilt v =>
    if s.variant = .vicSpeed ∧ s.cfg.rangePolicy = .strict ∧ 2047 < v.natAbs then some (.rangeError v) else none
  | .vicAux ch _ => if 1 ≤ ch ∧ ch ≤ 6 then none else some (.rangeError ch)
  | _ => none

/-- Every cause of `OutOfRange` (R183), with the span R155, R156 and R181 give it. -/
def spanErrorOf (i : Instr) (s : State) : Option OpError :=
  match i with
  | .bbNew n => if s.cfg.maxBits < n then some (.outOfRange 0 n) else none
  | .bbGet k => if s.width ≤ k then some (.outOfRange k 1) else none
  | .bbSet k _ => if s.width ≤ k then some (.outOfRange k 1) else none
  | .bbWrf first count _ => if s.width < first + count then some (.outOfRange first count) else none
  | .vicPan _ =>
    if s.variant ≠ .vicSpeed then none
    else if s.cfg.vicSpeedBits < 52 then some (.outOfRange 48 4)
    else if s.cfg.vicSpeedBits < 63 then some (.outOfRange 56 7)
    else none
  | .vicTilt _ =>
    if s.variant ≠ .vicSpeed then none
    else if s.cfg.vicSpeedBits < 68 then some (.outOfRange 64 4)
    else if s.cfg.vicSpeedBits < 79 then some (.outOfRange 72 7)
    else none
  | .vicAux ch _ => if s.width ≤ 32 + ch.toNat then some (.outOfRange (32 + ch.toNat) 1) else none
  | _ => none

/-- The single error an operation raises: the first check of R187 that fails, after legality. -/
def errorOf (i : Instr) (s : State) : Option OpError :=
  (variantError i s).or ((rangeErrorOf i s).or (spanErrorOf i s))

/-! ### What one operation changes -/

/-- From `s` to `t` only FRAME may have changed, and the response `r` was given. -/
abbrev KeepsAllButFrame (s t : State) (r : Response) : Prop :=
  t.variant = s.variant ∧ t.width = s.width ∧ t.cfg = s.cfg ∧ t.requests = s.requests ∧
    t.responses = s.responses ++ [r]

/-- `t` holds a new frame of variant `v` and width `w`, made from `s` with the response `OK`. -/
abbrev HoldsNewFrame (s t : State) (v : Variant) (w : Nat) : Prop :=
  t.variant = v ∧ t.width = w ∧ t.cfg = s.cfg ∧ t.requests = s.requests ∧
    t.responses = s.responses ++ [.ok .empty]

/-- The bits after a field write: `value`, least significant bit first, in the span, every other bit as it was (R42). -/
def spanBits (first count value : Nat) (old : Nat → Bool) (k : Nat) : Bool :=
  if first ≤ k ∧ k < first + count then value.testBit (k - first) else old k

/-- The bits after a directional setter: each flag of the pair by the sign of `v`, every other bit as it was (R73). -/
def pairBits (neg pos : Nat) (v : Int) (old : Nat → Bool) (k : Nat) : Bool :=
  if k = neg then decide (v < 0) else if k = pos then decide (0 < v) else old k

/-- A rule's encoding line: with opcode `op`, the field values `legal` admits decode to `mk` of them, and with any other
field values the word raises `IllegalOp(op)` (R77, R78). -/
def EncodedAs (op : BitVec 8) (legal : BitVec 8 → BitVec 16 → BitVec 32 → Prop)
    (mk : BitVec 8 → BitVec 16 → BitVec 32 → Instr) : Prop :=
  ∀ (b : BitVec 8) (idx : BitVec 16) (val : BitVec 32),
    (legal b idx val → decode (packWord op b idx val) = .ok (mk b idx val)) ∧
    (¬ legal b idx val → ∀ s, serve (packWord op b idx val) s = .next (s.answer (.error (.illegalOp op))))

/-- The encoding of an operation without operands: `B = IDX = VAL = 0`. -/
abbrev EncodedAlone (op : BitVec 8) (i : Instr) : Prop :=
  EncodedAs op (fun b idx val => b = 0 ∧ idx = 0 ∧ val = 0) (fun _ _ _ => i)

/-- The encoding of an operation whose one operand is `sext_32(VAL)`: `B = IDX = 0`. -/
abbrev EncodedSigned (op : BitVec 8) (mk : Int → Instr) : Prop :=
  EncodedAs op (fun b idx _ => b = 0 ∧ idx = 0) (fun _ _ val => mk val.toInt)

/-- The encoding of an operation whose one operand is `B[0]`: `B[7:1] = 0`, `IDX = VAL = 0`. -/
abbrev EncodedBit (op : BitVec 8) (mk : Bool → Instr) : Prop :=
  EncodedAs op (fun b idx val => (b = 0 ∨ b = 1) ∧ idx = 0 ∧ val = 0) (fun b _ _ => mk (b = 1))

/-- In every variant but those listed the operation raises `WrongVariant` with the code held (R184). -/
abbrev AcceptedOnlyIn (i : Instr) (vs : List Variant) : Prop :=
  ∀ s : State, s.variant ∉ vs → exec i s = .next (s.answer (.error (.wrongVariant s.variant.code)))

/-- The lens code an operation selects: only a lens setter with a nonzero input selects one (R127-R130). -/
def lensChoice (c : Cfg) : Instr → Option (BitVec 3)
  | .manZoom v => if v = 0 then none else if 0 < v then some c.manLcZoomIn else some c.manLcZoomOut
  | .manFocus v =>
    if v = 0 then none
    else
      match c.focusPositive with
      | .far => if 0 < v then some c.manLcFocusFar else some c.manLcFocusNear
      | .near => if 0 < v then some c.manLcFocusNear else some c.manLcFocusFar
  | .manIris v =>
    if v = 0 then none
    else
      match c.irisPositive with
      | .opening => if 0 < v then some c.manLcIrisOpen else some c.manLcIrisClose
      | .closing => if 0 < v then some c.manLcIrisClose else some c.manLcIrisOpen
  | _ => none

/-! ### The assembler's lines (30_encoding.md R81) -/

/-- The operands of an operation, in R81's order. -/
def operandsOf : Instr → List Int
  | .bbNew n => [n]
  | .bbGet i => [i]
  | .bbSet i b => [i, b.toNat]
  | .bbWrf first count value => [first, count, value]
  | .bbOctets => []
  | .frameDiscard => []
  | .frameInfo => []
  | .manNewPt => []
  | .manNewLens => []
  | .manNewAux => []
  | .manRecv r => [r]
  | .manPan v => [v]
  | .manTilt v => [v]
  | .manZoom v => [v]
  | .manFocus v => [v]
  | .manIris v => [v]
  | .manAux ch => [ch]
  | .vicNewStatus => []
  | .vicNewCmd => []
  | .vicNewSpeed => []
  | .vicRecv r => [r]
  | .vicPan v => [v]
  | .vicTilt v => [v]
  | .vicZoom v => [v]
  | .vicIris v => [v]
  | .vicFocus v => [v]
  | .vicAutoIris b => [b.toNat]
  | .vicAutoPan b => [b.toNat]
  | .vicLensSpeed b => [b.toNat]
  | .vicAux ch b => [ch, b.toNat]

/-- The least and the greatest value of an operand (R81). -/
structure OperandRange where
  least : Int
  greatest : Int
  deriving DecidableEq, Repr

/-- `n`, `i` and `first`. -/
def OperandRange.idx : OperandRange := ⟨0, 65535⟩
/-- `count` -/
def OperandRange.count : OperandRange := ⟨0, 255⟩
/-- `b` -/
def OperandRange.bit : OperandRange := ⟨0, 1⟩
/-- `value` -/
def OperandRange.value : OperandRange := ⟨0, 2 ^ 32 - 1⟩
/-- Every signed operand. -/
def OperandRange.signed : OperandRange := ⟨-2 ^ 31, 2 ^ 31 - 1⟩

/-- The four pseudo-instructions (R82). -/
def pseudoMnemonics : List String := ["BB.CLR", "BB.ONE", "VIC.AUXON", "VIC.AUXOFF"]

/-- R81's lines and R82's: each mnemonic with the ranges of its operands, in order. -/
def operandRanges : List (String × List OperandRange) :=
  [("BB.NEW", [.idx]), ("BB.GET", [.idx]), ("BB.SET", [.idx, .bit]), ("BB.WRF", [.idx, .count, .value]),
    ("BB.OCTETS", []), ("FRAME.DISCARD", []), ("FRAME.INFO", []),
    ("MAN.NEW.PT", []), ("MAN.NEW.LENS", []), ("MAN.NEW.AUX", []), ("MAN.RECV", [.signed]),
    ("MAN.PAN", [.signed]), ("MAN.TILT", [.signed]), ("MAN.ZOOM", [.signed]), ("MAN.FOCUS", [.signed]),
    ("MAN.IRIS", [.signed]), ("MAN.AUX", [.signed]),
    ("VIC.NEW.STATUS", []), ("VIC.NEW.CMD", []), ("VIC.NEW.SPEED", []), ("VIC.RECV", [.signed]),
    ("VIC.PAN", [.signed]), ("VIC.TILT", [.signed]), ("VIC.ZOOM", [.signed]), ("VIC.IRIS", [.signed]),
    ("VIC.FOCUS", [.signed]), ("VIC.AUTOIRIS", [.bit]), ("VIC.AUTOPAN", [.bit]), ("VIC.LENSSPEED", [.bit]),
    ("VIC.AUX", [.signed, .bit]),
    ("BB.CLR", [.idx]), ("BB.ONE", [.idx]), ("VIC.AUXON", [.signed]), ("VIC.AUXOFF", [.signed])]

/-- There are as many operands as ranges, and each is in its own (R81). -/
abbrev OperandsFit (ops : List Int) (ranges : List OperandRange) : Prop :=
  List.Forall₂ (fun v r => r.least ≤ v ∧ v ≤ r.greatest) ops ranges

/-- A number as R81 writes it: decimal with an optional leading `-`, or hexadecimal with `0x`. -/
def WrittenAs (text : List Char) (v : Int) : Prop :=
  (0 ≤ v ∧ text = Nat.toDigits 10 v.natAbs) ∨ (v ≤ 0 ∧ text = '-' :: Nat.toDigits 10 v.natAbs) ∨
    (0 ≤ v ∧ text = '0' :: 'x' :: Nat.toDigits 16 v.natAbs)

/-- Operand texts separated by commas, as R81 spaces them. -/
def operandText : List (List Char) → List Char
  | [] => []
  | [t] => t
  | t :: ts => t ++ ',' :: ' ' :: operandText ts

/-- One line: the mnemonic followed by its operands (R81). -/
def asmLine (mnemonic : String) : List (List Char) → String
  | [] => mnemonic
  | t :: ts => String.ofList (mnemonic.toList ++ ' ' :: operandText (t :: ts))

/-! ### Byte maps (30_encoding.md R67, R72) -/

/-- The three bytes of a Manchester frame (R67), from its fields. -/
def manchesterBytes (f : Frame) : List Byte :=
  let z := manReceiver f - 1
  [BitVec.ofNat 8 (0x80 ||| (z >>> 6)),
    BitVec.ofNat 8 (((z >>> 5) &&& 1) ||| (f.field 9 3 <<< 1) ||| (f.field 12 2 <<< 4)),
    BitVec.ofNat 8 ((f.field 17 1 <<< 1) ||| ((z &&& 0x1F) <<< 2))]

/-- Byte `k` of a Vicon frame (R72), from its fields. -/
def viconByte (f : Frame) : Nat → Byte
  | 0 => BitVec.ofNat 8 (0x80 ||| (vicReceiver f >>> 4))
  | 1 => BitVec.ofNat 8 ((vicReceiver f &&& 0xF) ||| (f.field 12 1 <<< 4) ||| (f.field 14 1 <<< 6))
  | 2 => BitVec.ofNat 8 ((f.field 17 1 <<< 1) ||| (f.field 18 1 <<< 2) ||| (f.field 19 1 <<< 3) |||
      (f.field 20 1 <<< 4) ||| (f.field 21 1 <<< 5) ||| (f.field 22 1 <<< 6))
  | 3 => BitVec.ofNat 8 (f.field 24 1 ||| (f.field 25 1 <<< 1) ||| (f.field 26 1 <<< 2) ||| (f.field 27 1 <<< 3) |||
      (f.field 28 1 <<< 4) ||| (f.field 29 1 <<< 5) ||| (f.field 30 1 <<< 6))
  | 4 => BitVec.ofNat 8 ((f.field 33 1 <<< 1) + (f.field 34 1 <<< 2) + (f.field 35 1 <<< 3) +
      (f.field 36 1 <<< 4) + (f.field 37 1 <<< 5) + (f.field 38 1 <<< 6))
  | 6 => BitVec.ofNat 8 (f.field 48 4)
  | 7 => BitVec.ofNat 8 (f.field 56 7)
  | 8 => BitVec.ofNat 8 (f.field 64 4)
  | 9 => BitVec.ofNat 8 (f.field 72 7)
  | _ => 0

/-- Two states answer an operation alike: with the same response, neither changing otherwise. -/
abbrev SameAnswer (i : Instr) (s t : State) : Prop :=
  ∀ r : Response, exec i s = .next (s.answer r) ↔ exec i t = .next (t.answer r)

end Sys2Proof.Machine
end

