-- ==== Sys2Proof/Certificates/Slice0/Obligations.lean ====
section
/-! DEFINITION. The statements for the provers, in the order of spec/'s files. Each docstring names the rules it
formalises. A state field is named `s.frame.bit k` for FRAME[k]. -/

open Sys2Proof Sys2Proof.Machine

/-! ### Encoding (30_encoding.md R74-R82) -/

/-- Decoding the word of a well-formed operation gives the operation back, every operand at every value its field admits
(R74-R77, R81). -/
def Obligations.DecodeOfEncode : Prop := ∀ i : Instr, i.wf = true → decode (encode i) = .ok i

/-- A word that decodes is the word of the operation it decodes to, and that operation is well-formed (R74-R78). -/
def Obligations.EncodeOfDecode : Prop := ∀ (w : OpWord) (i : Instr), decode w = .ok i → encode i = w ∧ i.wf = true

/-- R78: a word that matches a row of the opcode table decodes to that row's operation; every other word raises
`IllegalOp(OP)` in every state. -/
def Obligations.LegalExactlyAtTableRows : Prop :=
  ∀ w : OpWord,
    (∀ r ∈ opcodeTable, w &&& r.mask = r.matchWord → ∃ i, decode w = .ok i ∧ i.mnemonic = r.mnemonic) ∧
    ((∀ r ∈ opcodeTable, w &&& r.mask ≠ r.matchWord) →
      ∀ s : State, serve w s = .next (s.answer (.error (.illegalOp (opOf w)))))

/-- Words of 95_test_vectors.md, one of each family and some illegal ones, decode as written there. -/
def Obligations.KnownWordsDecode : Prop :=
  decode 0x00000000000C0001 = .ok (.bbNew 12) ∧
  decode 0x000001A500040804 = .ok (.bbWrf 4 8 0x1A5) ∧
  decode 0xFFFFFFFA00000014 = .ok (.manPan (-6)) ∧
  decode 0x0000000400000019 = .ok (.manAux 4) ∧
  decode 0xFFFFFD1800000024 = .ok (.vicPan (-744)) ∧
  decode 0x000000030000012C = .ok (.vicAux 3 true) ∧
  decode 0x000000000000001A = .error (.reservedOpcode 0x1A) ∧
  decode 0x0000000100000005 = .error (.unusedFieldNotZero 0x05) ∧
  decode 0x0000000000000203 = .error (.upperBitsOfBNotZero 0x03)

/-- R74: where the word travels as bytes, byte 0 is `W[7:0]`; eight bytes are one word, fewer are none (the last is log
entry 12). -/
def Obligations.BytesCarryTheWord : Prop :=
  (∀ (w : OpWord) (rest : List Byte),
    decodeBytes (bytesOfWord w ++ rest) = (decode w).map (fun i => (i, rest))) ∧
  (∀ w : OpWord, (bytesOfWord w).length = 8 ∧
    ∀ k (h : k < (bytesOfWord w).length) j, j < 8 → (bytesOfWord w)[k].getLsbD j = w.getLsbD (8 * k + j)) ∧
  (∀ bs : List Byte, bs.length < 8 → decodeBytes bs = .error (.tooFewBytes bs.length))

/-- R81, R82: the assembler gives every well-formed operation from its mnemonic and its operands in R81's order, and gives
an operation for nothing else but the pseudo-instructions. It gives an operation exactly where the operands are as many
as the mnemonic takes and each is in its range, so an operand that does not fit gives none. A pseudo-instruction gives
what its expansion gives. A line of text (the mnemonic, and the operands separated by commas, each decimal with an
optional leading minus sign or hexadecimal with `0x`) gives what its mnemonic and operands give. Other spacing, and the
case of hexadecimal digits, is the model's choice (log entry 11). -/
def Obligations.AssemblerGivesOnlyFittingOperations : Prop :=
  (∀ i : Instr, i.wf = true → assemble i.mnemonic (operandsOf i) = some i) ∧
  (∀ (m : String) (ops : List Int) (i : Instr), assemble m ops = some i →
    i.wf = true ∧ ((i.mnemonic = m ∧ operandsOf i = ops) ∨ m ∈ pseudoMnemonics)) ∧
  (∀ row ∈ operandRanges, ∀ ops : List Int, (assemble row.1 ops).isSome = true ↔ OperandsFit ops row.2) ∧
  (∀ v : Int, assemble "BB.CLR" [v] = assemble "BB.SET" [v, 0] ∧ assemble "BB.ONE" [v] = assemble "BB.SET" [v, 1] ∧
    assemble "VIC.AUXON" [v] = assemble "VIC.AUX" [v, 1] ∧ assemble "VIC.AUXOFF" [v] = assemble "VIC.AUX" [v, 0]) ∧
  (∀ row ∈ operandRanges, ∀ (texts : List (List Char)) (ops : List Int), List.Forall₂ WrittenAs texts ops →
    assembleLine (asmLine row.1 texts) = assemble row.1 ops)

/-! ### The port and the run (10_state.md R31, 60_exceptions.md R180-R187, R196) -/

/-- One step takes the host's next word; a word that decodes is executed, the word taken and nothing else changed before
(R6, R31, R211). -/
def Obligations.StepRunsTheDecodedOperation : Prop :=
  ∀ (s : State) (w : OpWord) (rest : List OpWord) (i : Instr),
    s.requests = w :: rest → decode w = .ok i → step s = exec i { s with requests := rest }

/-- R185: a step at an illegal word answers `IllegalOp(OP)` and changes nothing but the port. -/
def Obligations.StepAnswersIllegalWords : Prop :=
  ∀ (s : State) (w : OpWord) (rest : List OpWord) (e : DecodeError),
    s.requests = w :: rest → decode w = .error e →
      step s = .next { s with requests := rest, responses := s.responses ++ [.error (.illegalOp (opOf w))] }

/-- With no word left the run has ended (R196), and the step says so by a fault: the model's choice (log entry 6). -/
def Obligations.StepFaultsExactlyAtTheEndOfTheRun : Prop :=
  ∀ s : State, (s.requests = [] → step s = .fault .endOfRun) ∧ (s.requests ≠ [] → ∃ t, step s = .next t)

/-- R180: every operation ends with exactly one response, and only `BB.GET`, `BB.OCTETS` and `FRAME.INFO` return data on
`OK`, whose code is 0: one bit, `ceil(WIDTH/8)` bytes, and the pair of the VARIANT code and WIDTH. An error response
carries the error's info in place of data, and the code of its kind in R181: RangeError 1, OutOfRange 2, WrongVariant 3,
IllegalOp 4. -/
def Obligations.EveryOperationGivesOneResponse : Prop :=
  ∀ (i : Instr) (s : State), ∃ t r, exec i s = .next t ∧ t.responses = s.responses ++ [r] ∧
    (if r.code = 0 then ∃ d, r = .ok d
      else if r.code = 1 then ∃ v, r = .error (.rangeError v)
      else if r.code = 2 then ∃ first count, r = .error (.outOfRange first count)
      else if r.code = 3 then ∃ code, r = .error (.wrongVariant code)
      else r.code = 4 ∧ ∃ op, r = .error (.illegalOp op)) ∧
    ∀ d, r = .ok d →
      match i with
      | .bbGet _ => ∃ b, d = .bit b
      | .bbOctets => ∃ bs, d = .octets bs ∧ bs.length = (s.width + 7) / 8
      | .frameInfo => d = .info s.variant.code s.width
      | _ => d = .empty

/-- One step takes one word, adds one response, moves the host's index by one, and leaves CFG as it was (R6, R7, R31; that
State holds the words and the responses is log entries 4 and 5). -/
def Obligations.StepTakesOneWordAndKeepsCfg : Prop :=
  ∀ (s : State) (w : OpWord) (rest : List OpWord), s.requests = w :: rest →
    ∃ t r, step s = .next t ∧ t.requests = rest ∧ t.responses = s.responses ++ [r] ∧
      t.position = s.position + 1 ∧ t.cfg = s.cfg

/-- R186: an operation that raises an error changes no state: VARIANT, WIDTH and every bit of FRAME keep their values.
The error stands only in the response, and no later operation sees it: each gives the response and the state it would
have given without it. -/
def Obligations.ErrorsChangeNoState : Prop :=
  ∀ (s t : State) (w : OpWord) (e : OpError),
    serve w s = .next t → t.responses = s.responses ++ [.error e] →
      KeepsAllButFrame s t (.error e) ∧ t.frame = s.frame ∧
      ∀ i : Instr, ∃ u v r, exec i s = .next u ∧ u.responses = s.responses ++ [r] ∧
        exec i t = .next v ∧ v.responses = t.responses ++ [r] ∧
          v.variant = u.variant ∧ v.width = u.width ∧ v.frame = u.frame

/-- R182, R183, R187: of `IllegalOp`, `WrongVariant`, `RangeError` and `OutOfRange` the first whose cause stands is
raised, and where none stands the response is `OK`. -/
def Obligations.FirstFailingCheckDecidesTheResponse : Prop :=
  ∀ (w : OpWord) (s : State), s.Sized →
    match decode w with
    | .error _ => serve w s = .next (s.answer (.error (.illegalOp (opOf w))))
    | .ok i =>
      match errorOf i s with
      | some e => serve w s = .next (s.answer (.error e))
      | none => ∃ t d, serve w s = .next t ∧ t.responses = s.responses ++ [.ok d]

/-- R30: no operation reads the responses given before, nor the words to come: on two states that differ in these alone
every operation gives the same response and the same VARIANT, WIDTH, FRAME and CFG. That State holds them at all is log
entries 4 and 5. -/
def Obligations.ResponsesAreNeverRead : Prop :=
  ∀ (i : Instr) (s : State) (rs : List Response) (qs : List OpWord), ∃ t r,
    exec i s = .next t ∧ t.responses = s.responses ++ [r] ∧
      exec i { s with responses := rs, requests := qs } = .next { t with responses := rs ++ [r], requests := qs }

/-- R196: from any state, the run of the words the host holds ends after the response to the last one: one step and one
response a word, CFG unchanged, and no word left. The words are taken in the order issued: step `k` serves word `k`, with
the words after it still to come, and the response that it gives is response `k` of the run. That the step after the last
faults is log entry 6. -/
def Obligations.RunAnswersEveryWordOnce : Prop :=
  ∀ s : State, ∃ t rs, Host.Core.run Sys2Proof.core s.requests.length s = .next t ∧ t.requests = [] ∧
    t.responses = s.responses ++ rs ∧ rs.length = s.requests.length ∧ t.cfg = s.cfg ∧
      step t = .fault .endOfRun ∧
      ∀ (k : Nat) (h : k < s.requests.length), ∃ (u v : State) (r : Response),
        Host.Core.run Sys2Proof.core k s = .next u ∧ Host.Core.run Sys2Proof.core (k + 1) s = .next v ∧
        serve s.requests[k] { u with requests := s.requests.drop (k + 1) } = .next v ∧
        v.responses = u.responses ++ [r] ∧ rs[k]? = some r

/-! ### BitBuffer and frame operations (40_bitbuffer.md) -/

/-- R100: `BB.NEW n` makes a raw frame of width `n`, all bits 0; beyond MAX_BITS it raises `OutOfRange(0, n)`. -/
def Obligations.BbNewMakesAZeroFrame : Prop :=
  EncodedAs 0x01 (fun b _ val => b = 0 ∧ val = 0) (fun _ idx _ => .bbNew idx.toNat) ∧
  ∀ (n : Nat) (s : State),
    (n ≤ s.cfg.maxBits → ∃ t, exec (.bbNew n) s = .next t ∧ HoldsNewFrame s t .raw n ∧ ∀ k, t.frame.bit k = false) ∧
    (s.cfg.maxBits < n → exec (.bbNew n) s = .next (s.answer (.error (.outOfRange 0 n))))

/-- R101: `BB.GET i` responds with the bit, in every variant, and changes nothing; at or above WIDTH it raises
`OutOfRange(i, 1)`. -/
def Obligations.BbGetReadsOneBit : Prop :=
  EncodedAs 0x02 (fun b _ val => b = 0 ∧ val = 0) (fun _ idx _ => .bbGet idx.toNat) ∧
  ∀ (i : Nat) (s : State),
    (i < s.width → exec (.bbGet i) s = .next (s.answer (.ok (.bit (s.frame.bit i))))) ∧
    (s.width ≤ i → exec (.bbGet i) s = .next (s.answer (.error (.outOfRange i 1))))

/-- R102: `BB.SET i, b` writes bit `i` of a raw frame and no other. -/
def Obligations.BbSetWritesOneBit : Prop :=
  EncodedAs 0x03 (fun b _ val => (b = 0 ∨ b = 1) ∧ val = 0) (fun b idx _ => .bbSet idx.toNat (b = 1)) ∧
  (∀ i b, AcceptedOnlyIn (.bbSet i b) [.raw]) ∧
  ∀ (i : Nat) (b : Bool) (s : State), s.variant = .raw →
    (i < s.width → ∃ t, exec (.bbSet i b) s = .next t ∧ KeepsAllButFrame s t (.ok .empty) ∧
      ∀ k, t.frame.bit k = if k = i then b else s.frame.bit k) ∧
    (s.width ≤ i → exec (.bbSet i b) s = .next (s.answer (.error (.outOfRange i 1))))

/-- R103: `BB.WRF first, count, value` writes the low `count` bits of `value` from `first` on, least significant bit
first, and no other bit; a span out of range writes nothing. -/
def Obligations.BbWrfWritesOneField : Prop :=
  EncodedAs 0x04 (fun _ _ _ => True) (fun b idx val => .bbWrf idx.toNat b.toNat val.toNat) ∧
  (∀ first count value, AcceptedOnlyIn (.bbWrf first count value) [.raw]) ∧
  ∀ (first count value : Nat) (s : State), s.variant = .raw →
    (first + count ≤ s.width → ∃ t, exec (.bbWrf first count value) s = .next t ∧
      KeepsAllButFrame s t (.ok .empty) ∧ ∀ k, t.frame.bit k = spanBits first count value s.frame.bit k) ∧
    (s.width < first + count →
      exec (.bbWrf first count value) s = .next (s.answer (.error (.outOfRange first count))))

/-- R104, R45: `BB.OCTETS` responds with `ceil(WIDTH/8)` bytes, bit `j` of byte `k` being FRAME[8k+j] below WIDTH and 0
above, in every variant, and changes nothing. -/
def Obligations.BbOctetsSerializesTheFrame : Prop :=
  EncodedAlone 0x05 .bbOctets ∧
  ∀ s : State, ∃ bs, exec .bbOctets s = .next (s.answer (.ok (.octets bs))) ∧ bs.length = (s.width + 7) / 8 ∧
    ∀ k (h : k < bs.length) j, j < 8 → bs[k].getLsbD j = (decide (8 * k + j < s.width) && s.frame.bit (8 * k + j))

/-- R105: `FRAME.DISCARD` leaves no frame held, WIDTH 0 and every bit 0. -/
def Obligations.FrameDiscardHoldsNoFrame : Prop :=
  EncodedAlone 0x06 .frameDiscard ∧
  ∀ s : State, ∃ t, exec .frameDiscard s = .next t ∧ HoldsNewFrame s t .none 0 ∧ ∀ k, t.frame.bit k = false

/-- R106: `FRAME.INFO` responds with the VARIANT code and WIDTH and changes nothing. -/
def Obligations.FrameInfoReportsVariantAndWidth : Prop :=
  EncodedAlone 0x07 .frameInfo ∧
  (Variant.none.code = 0 ∧ Variant.raw.code = 1 ∧ Variant.manPt.code = 2 ∧ Variant.manLens.code = 3 ∧
    Variant.manAux.code = 4 ∧ Variant.vicStatus.code = 5 ∧ Variant.vicCmd.code = 6 ∧ Variant.vicSpeed.code = 7) ∧
  ∀ s : State, exec .frameInfo s = .next (s.answer (.ok (.info s.variant.code s.width)))

/-- R107: on a raw frame `BB.SET i, b` then `BB.GET k` responds `b` for `k = i` and, for every other `k` below WIDTH,
what it responded before. -/
def Obligations.SetThenGetLaw : Prop :=
  ∀ (i k : Nat) (b : Bool) (s : State), s.variant = .raw → i < s.width → k < s.width →
    exec (.bbGet k) s = .next (s.answer (.ok (.bit (s.frame.bit k)))) ∧
    ∃ t, exec (.bbSet i b) s = .next t ∧
      exec (.bbGet k) t = .next (t.answer (.ok (.bit (if k = i then b else s.frame.bit k))))

/-- R108: reading back the `count` bits `BB.WRF` wrote, with `BB.GET`, gives `v mod 2^count`. -/
def Obligations.WriteFieldRoundTripLaw : Prop :=
  ∀ (first count v : Nat) (s : State), s.variant = .raw → first + count ≤ s.width →
    ∃ (t : State) (bits : Nat → Bool), exec (.bbWrf first count v) s = .next t ∧
      (∀ j, j < count → exec (.bbGet (first + j)) t = .next (t.answer (.ok (.bit (bits j))))) ∧
      ((List.range count).map fun j => (bits j).toNat <<< j).sum = v % 2 ^ count

/-! ### Manchester operations (41_manchester.md) -/

/-- R120: `MAN.NEW.PT` makes a 24-bit frame with the sync flag and DISC = MAN_PT_DISC, every other bit 0. -/
def Obligations.ManNewPtMakesItsFrame : Prop :=
  EncodedAlone 0x10 .manNewPt ∧
  ∀ s : State, ∃ t, exec .manNewPt s = .next t ∧ HoldsNewFrame s t .manPt 24 ∧
    ∀ k, t.frame.bit k = if k = 7 then true else if k = 17 then s.cfg.manPtDisc.getLsbD 0 else false

/-- R121: `MAN.NEW.LENS` makes a 24-bit frame with the sync flag, DISC = 1 - MAN_PT_DISC and F2 = MAN_FC_LENS. -/
def Obligations.ManNewLensMakesItsFrame : Prop :=
  EncodedAlone 0x11 .manNewLens ∧
  ∀ s : State, ∃ t, exec .manNewLens s = .next t ∧ HoldsNewFrame s t .manLens 24 ∧
    ∀ k, t.frame.bit k =
      if k = 7 then true
      else if k = 17 then !s.cfg.manPtDisc.getLsbD 0
      else if 12 ≤ k ∧ k < 14 then s.cfg.manFcLens.getLsbD (k - 12) else false

/-- R122: `MAN.NEW.AUX` makes a 24-bit frame with the sync flag, DISC = 1 - MAN_PT_DISC and F2 = MAN_FC_AUX. -/
def Obligations.ManNewAuxMakesItsFrame : Prop :=
  EncodedAlone 0x12 .manNewAux ∧
  ∀ s : State, ∃ t, exec .manNewAux s = .next t ∧ HoldsNewFrame s t .manAux 24 ∧
    ∀ k, t.frame.bit k =
      if k = 7 then true
      else if k = 17 then !s.cfg.manPtDisc.getLsbD 0
      else if 12 ≤ k ∧ k < 14 then s.cfg.manFcAux.getLsbD (k - 12) else false

/-- R123: `MAN.RECV r` writes `z = r - 1` as z[7:6] at 0, z[5] at 8 and z[4:0] at 18, and no other bit; outside 1..255 it
raises `RangeError(r)`. -/
def Obligations.ManRecvWritesTheReceiver : Prop :=
  EncodedSigned 0x13 .manRecv ∧
  (∀ r, AcceptedOnlyIn (.manRecv r) [.manPt, .manLens, .manAux]) ∧
  ∀ (r : Int) (s : State), s.variant.isManchester = true →
    (s.WidthOk → 1 ≤ r → r ≤ 255 → ∃ t, exec (.manRecv r) s = .next t ∧ KeepsAllButFrame s t (.ok .empty) ∧
      ∀ k, t.frame.bit k =
        if k < 2 then (r - 1).toNat.testBit (6 + k)
        else if k = 8 then (r - 1).toNat.testBit 5
        else if 18 ≤ k ∧ k < 23 then (r - 1).toNat.testBit (k - 18)
        else s.frame.bit k) ∧
    (r < 1 ∨ 255 < r → exec (.manRecv r) s = .next (s.answer (.error (.rangeError r))))

/-- R124: `MAN.PAN v` writes pan-left (2) or pan-right (3) by the sign of `v`, keeps the direction for zero, and writes
the speed `abs(v) mod 8`; under STRICT it raises `RangeError(v)` where `abs(v) > 7`. -/
def Obligations.ManPanWritesDirectionAndSpeed : Prop :=
  EncodedSigned 0x14 .manPan ∧
  (∀ v, AcceptedOnlyIn (.manPan v) [.manPt]) ∧
  ∀ (v : Int) (s : State), s.variant = .manPt →
    (s.WidthOk → ¬ (s.cfg.rangePolicy = .strict ∧ 7 < v.natAbs) →
      ∃ t, exec (.manPan v) s = .next t ∧ KeepsAllButFrame s t (.ok .empty) ∧
        ∀ k, t.frame.bit k =
          if 9 ≤ k ∧ k < 12 then (v.natAbs % 8).testBit (k - 9)
          else if k = 12 ∧ v ≠ 0 then decide (0 < v)
          else if k = 13 ∧ v ≠ 0 then true
          else s.frame.bit k) ∧
    (s.cfg.rangePolicy = .strict → 7 < v.natAbs →
      exec (.manPan v) s = .next (s.answer (.error (.rangeError v))))

/-- R125: `MAN.TILT v` writes tilt-down (0) or tilt-up (1) by the sign of `v`, keeps the direction for zero, and writes
the speed `abs(v) mod 8`; under STRICT it raises `RangeError(v)` where `abs(v) > 7`. -/
def Obligations.ManTiltWritesDirectionAndSpeed : Prop :=
  EncodedSigned 0x15 .manTilt ∧
  (∀ v, AcceptedOnlyIn (.manTilt v) [.manPt]) ∧
  ∀ (v : Int) (s : State), s.variant = .manPt →
    (s.WidthOk → ¬ (s.cfg.rangePolicy = .strict ∧ 7 < v.natAbs) →
      ∃ t, exec (.manTilt v) s = .next t ∧ KeepsAllButFrame s t (.ok .empty) ∧
        ∀ k, t.frame.bit k =
          if 9 ≤ k ∧ k < 12 then (v.natAbs % 8).testBit (k - 9)
          else if k = 12 ∧ v ≠ 0 then decide (0 < v)
          else if k = 13 ∧ v ≠ 0 then false
          else s.frame.bit k) ∧
    (s.cfg.rangePolicy = .strict → 7 < v.natAbs →
      exec (.manTilt v) s = .next (s.answer (.error (.rangeError v))))

/-- R126, R203, R206: of `MAN.PAN` and `MAN.TILT` on one frame the later one's direction and speed stand; a later zero
keeps the earlier direction and writes speed 0. -/
def Obligations.LaterMoveReplacesTheEarlier : Prop :=
  ∀ (a b : Int) (s : State), s.variant = .manPt → s.WidthOk →
    (s.cfg.rangePolicy = .strict → a.natAbs ≤ 7 ∧ b.natAbs ≤ 7) →
    (∃ t u, exec (.manPan a) s = .next t ∧ exec (.manTilt b) t = .next u ∧
      u.frame.field 12 2 = (if b < 0 then 0 else if 0 < b then 1 else t.frame.field 12 2) ∧
      u.frame.field 9 3 = b.natAbs % 8) ∧
    (∃ t u, exec (.manTilt a) s = .next t ∧ exec (.manPan b) t = .next u ∧
      u.frame.field 12 2 = (if b < 0 then 2 else if 0 < b then 3 else t.frame.field 12 2) ∧
      u.frame.field 9 3 = b.natAbs % 8)

/-- R127: `MAN.ZOOM v` writes MAN_LC_ZOOM_IN for a positive `v`, MAN_LC_ZOOM_OUT for a negative one, and nothing for
zero. -/
def Obligations.ManZoomWritesTheLensCode : Prop :=
  EncodedSigned 0x16 .manZoom ∧
  (∀ v, AcceptedOnlyIn (.manZoom v) [.manLens]) ∧
  ∀ (v : Int) (s : State), s.variant = .manLens → s.WidthOk →
    ∃ t, exec (.manZoom v) s = .next t ∧ KeepsAllButFrame s t (.ok .empty) ∧
      ∀ k, t.frame.bit k =
        if v = 0 then s.frame.bit k
        else if 0 < v then spanBits 9 3 s.cfg.manLcZoomIn.toNat s.frame.bit k
        else spanBits 9 3 s.cfg.manLcZoomOut.toNat s.frame.bit k

/-- R128: `MAN.FOCUS v` writes the far or near code by the sign of `v` and FOCUS_POSITIVE, and nothing for zero. -/
def Obligations.ManFocusWritesTheLensCode : Prop :=
  EncodedSigned 0x17 .manFocus ∧
  (∀ v, AcceptedOnlyIn (.manFocus v) [.manLens]) ∧
  ∀ (v : Int) (s : State), s.variant = .manLens → s.WidthOk →
    ∃ t, exec (.manFocus v) s = .next t ∧ KeepsAllButFrame s t (.ok .empty) ∧
      ∀ k, t.frame.bit k =
        if v = 0 then s.frame.bit k
        else if (0 < v ∧ s.cfg.focusPositive = .far) ∨ (v < 0 ∧ s.cfg.focusPositive = .near) then
          spanBits 9 3 s.cfg.manLcFocusFar.toNat s.frame.bit k
        else spanBits 9 3 s.cfg.manLcFocusNear.toNat s.frame.bit k

/-- R129: `MAN.IRIS v` writes the open or close code by the sign of `v` and IRIS_POSITIVE, and nothing for zero. -/
def Obligations.ManIrisWritesTheLensCode : Prop :=
  EncodedSigned 0x18 .manIris ∧
  (∀ v, AcceptedOnlyIn (.manIris v) [.manLens]) ∧
  ∀ (v : Int) (s : State), s.variant = .manLens → s.WidthOk →
    ∃ t, exec (.manIris v) s = .next t ∧ KeepsAllButFrame s t (.ok .empty) ∧
      ∀ k, t.frame.bit k =
        if v = 0 then s.frame.bit k
        else if (0 < v ∧ s.cfg.irisPositive = .opening) ∨ (v < 0 ∧ s.cfg.irisPositive = .closing) then
          spanBits 9 3 s.cfg.manLcIrisOpen.toNat s.frame.bit k
        else spanBits 9 3 s.cfg.manLcIrisClose.toNat s.frame.bit k

/-- R130, R204: whatever a lens frame holds, of two lens setters with nonzero inputs the later one's code stands, and one
with a zero input leaves the earlier one's. -/
def Obligations.LaterLensCodeReplacesTheEarlier : Prop :=
  ∀ (i j : Instr) (c d : BitVec 3) (s : State), s.variant = .manLens → s.WidthOk →
    lensChoice s.cfg i = some c → lensChoice s.cfg j = some d →
      ∃ t, exec i s = .next t ∧ t.frame.field 9 3 = c.toNat ∧
        (∃ u, exec j t = .next u ∧ u.frame.field 9 3 = d.toNat) ∧
        ∀ z ∈ [Instr.manZoom 0, .manFocus 0, .manIris 0], ∃ u, exec z t = .next u ∧ u.frame.field 9 3 = c.toNat

/-- R131, R66: `MAN.AUX ch` writes the channel's mask, and no other bit; outside 1..6 it raises `RangeError(ch)`. -/
def Obligations.ManAuxWritesTheMask : Prop :=
  EncodedSigned 0x19 .manAux ∧
  (∀ ch, AcceptedOnlyIn (.manAux ch) [.manAux]) ∧
  (∀ s : State, s.variant = .manAux → s.WidthOk →
    ∀ p ∈ [((1 : Int), 2), (2, 4), (3, 6), (4, 3), (5, 5), (6, 7)],
      ∃ t, exec (.manAux p.1) s = .next t ∧ KeepsAllButFrame s t (.ok .empty) ∧
        ∀ k, t.frame.bit k = spanBits 9 3 p.2 s.frame.bit k) ∧
  (∀ (ch : Int) (s : State), s.variant = .manAux → (ch < 1 ∨ 6 < ch) →
    exec (.manAux ch) s = .next (s.answer (.error (.rangeError ch))))

/-- R132, R205: a second `MAN.AUX` is not rejected: it answers `OK`, its channel's mask replaces the first's, and the
frame is the one it would have written without the first. -/
def Obligations.LaterChannelReplacesTheEarlier : Prop :=
  ∀ (a : Int) (s : State), s.variant = .manAux → s.WidthOk → 1 ≤ a → a ≤ 6 →
    ∀ p ∈ [((1 : Int), 2), (2, 4), (3, 6), (4, 3), (5, 5), (6, 7)],
      ∃ t u v, exec (.manAux a) s = .next t ∧ KeepsAllButFrame s t (.ok .empty) ∧
        exec (.manAux p.1) t = .next u ∧ KeepsAllButFrame t u (.ok .empty) ∧ u.frame.field 9 3 = p.2 ∧
        exec (.manAux p.1) s = .next v ∧ ∀ k, u.frame.bit k = v.frame.bit k

/-- R62: after `MAN.RECV r` the pieces are `z >> 6`, `(z >> 5) & 1` and `z & 0x1F` of `z = r - 1`, and the decoder
recovers `r`. -/
def Obligations.ManchesterReceiverRoundTrip : Prop :=
  ∀ (r : Nat) (s : State), s.variant.isManchester = true → s.WidthOk → 1 ≤ r → r ≤ 255 →
    ∃ t, exec (.manRecv r) s = .next t ∧
      t.frame.field 0 2 = (r - 1) >>> 6 ∧ t.frame.field 8 1 = ((r - 1) >>> 5) &&& 1 ∧
      t.frame.field 18 5 = (r - 1) &&& 0x1F ∧ manReceiver t.frame = r

/-- R67: the three bytes of a Manchester frame, in any state that meets the invariant. -/
def Obligations.ManchesterByteMap : Prop :=
  ∀ s : State, s.Inv → s.variant.isManchester = true →
    exec .bbOctets s = .next (s.answer (.ok (.octets (manchesterBytes s.frame))))

/-! ### Vicon operations (42_vicon.md) -/

/-- R150: `VIC.NEW.STATUS` makes a 16-bit frame with the sync flag, every other bit 0. -/
def Obligations.VicNewStatusMakesItsFrame : Prop :=
  EncodedAlone 0x20 .vicNewStatus ∧
  ∀ s : State, ∃ t, exec .vicNewStatus s = .next t ∧ HoldsNewFrame s t .vicStatus 16 ∧
    ∀ k, t.frame.bit k = decide (k = 7)

/-- R151: `VIC.NEW.CMD` makes a frame of VIC_CMD_BITS bits with the sync flag and CMD, every other bit 0. -/
def Obligations.VicNewCmdMakesItsFrame : Prop :=
  EncodedAlone 0x21 .vicNewCmd ∧
  ∀ s : State, s.cfg.Legal → ∃ t, exec .vicNewCmd s = .next t ∧ HoldsNewFrame s t .vicCmd s.cfg.vicCmdBits ∧
    ∀ k, t.frame.bit k = decide (k = 7 ∨ k = 12)

/-- R152: `VIC.NEW.SPEED` makes a frame of VIC_SPEED_BITS bits with the sync flag, CMD and EXT, every other bit 0. -/
def Obligations.VicNewSpeedMakesItsFrame : Prop :=
  EncodedAlone 0x22 .vicNewSpeed ∧
  ∀ s : State, s.cfg.Legal → ∃ t, exec .vicNewSpeed s = .next t ∧ HoldsNewFrame s t .vicSpeed s.cfg.vicSpeedBits ∧
    ∀ k, t.frame.bit k = decide (k = 7 ∨ k = 12 ∨ k = 14)

/-- R153: `VIC.RECV r` writes r[7:4] at 0 and r[3:0] at 8, and no other bit; outside 1..255 it raises
`RangeError(r)`. -/
def Obligations.VicRecvWritesTheReceiver : Prop :=
  EncodedSigned 0x23 .vicRecv ∧
  (∀ r, AcceptedOnlyIn (.vicRecv r) [.vicStatus, .vicCmd, .vicSpeed]) ∧
  ∀ (r : Int) (s : State), s.variant.isVicon = true →
    (s.Sized → 1 ≤ r → r ≤ 255 → ∃ t, exec (.vicRecv r) s = .next t ∧ KeepsAllButFrame s t (.ok .empty) ∧
      vicReceiver t.frame = r.toNat ∧
      ∀ k, t.frame.bit k =
        if k < 4 then r.toNat.testBit (4 + k)
        else if 8 ≤ k ∧ k < 12 then r.toNat.testBit (k - 8)
        else s.frame.bit k) ∧
    (r < 1 ∨ 255 < r → exec (.vicRecv r) s = .next (s.answer (.error (.rangeError r))))

/-- R155: `VIC.PAN v` writes PAN_LEFT and PAN_RIGHT by the sign of `v`, and in a SpeedCommand frame the magnitude as
`abs(v) >> 7` at 48 and `abs(v) & 0x7F` at 56; there STRICT rejects `abs(v) > 2047`, and a frame too narrow raises
`OutOfRange`. -/
def Obligations.VicPanWritesDirectionAndSpeed : Prop :=
  EncodedSigned 0x24 .vicPan ∧
  (∀ v, AcceptedOnlyIn (.vicPan v) [.vicCmd, .vicSpeed]) ∧
  ∀ (v : Int) (s : State), s.Sized →
    (s.variant = .vicCmd → ∃ t, exec (.vicPan v) s = .next t ∧ KeepsAllButFrame s t (.ok .empty) ∧
      ∀ k, t.frame.bit k = pairBits 22 21 v s.frame.bit k) ∧
    (s.variant = .vicSpeed → s.cfg.rangePolicy = .strict → 2047 < v.natAbs →
      exec (.vicPan v) s = .next (s.answer (.error (.rangeError v)))) ∧
    (s.variant = .vicSpeed → ¬ (s.cfg.rangePolicy = .strict ∧ 2047 < v.natAbs) →
      if s.cfg.vicSpeedBits < 52 then exec (.vicPan v) s = .next (s.answer (.error (.outOfRange 48 4)))
      else if s.cfg.vicSpeedBits < 63 then exec (.vicPan v) s = .next (s.answer (.error (.outOfRange 56 7)))
      else ∃ t, exec (.vicPan v) s = .next t ∧ KeepsAllButFrame s t (.ok .empty) ∧
        ∀ k, t.frame.bit k =
          spanBits 48 4 (v.natAbs / 128 % 16) (spanBits 56 7 (v.natAbs % 128) (pairBits 22 21 v s.frame.bit)) k)

/-- R156: `VIC.TILT v` writes TILT_DOWN and TILT_UP by the sign of `v`, and in a SpeedCommand frame the magnitude at 64
and 72; there STRICT rejects `abs(v) > 2047`, and a frame too narrow, as at the default width, raises `OutOfRange`. -/
def Obligations.VicTiltWritesDirectionAndSpeed : Prop :=
  EncodedSigned 0x25 .vicTilt ∧
  (∀ v, AcceptedOnlyIn (.vicTilt v) [.vicCmd, .vicSpeed]) ∧
  ∀ (v : Int) (s : State), s.Sized →
    (s.variant = .vicCmd → ∃ t, exec (.vicTilt v) s = .next t ∧ KeepsAllButFrame s t (.ok .empty) ∧
      ∀ k, t.frame.bit k = pairBits 19 20 v s.frame.bit k) ∧
    (s.variant = .vicSpeed → s.cfg.rangePolicy = .strict → 2047 < v.natAbs →
      exec (.vicTilt v) s = .next (s.answer (.error (.rangeError v)))) ∧
    (s.variant = .vicSpeed → ¬ (s.cfg.rangePolicy = .strict ∧ 2047 < v.natAbs) →
      if s.cfg.vicSpeedBits < 68 then exec (.vicTilt v) s = .next (s.answer (.error (.outOfRange 64 4)))
      else if s.cfg.vicSpeedBits < 79 then exec (.vicTilt v) s = .next (s.answer (.error (.outOfRange 72 7)))
      else ∃ t, exec (.vicTilt v) s = .next t ∧ KeepsAllButFrame s t (.ok .empty) ∧
        ∀ k, t.frame.bit k =
          spanBits 64 4 (v.natAbs / 128 % 16) (spanBits 72 7 (v.natAbs % 128) (pairBits 19 20 v s.frame.bit)) k)

/-- R157: `VIC.ZOOM v` writes ZOOM_OUT (30) for a negative `v`, ZOOM_IN (29) for a positive one, and clears both for
zero; any magnitude is accepted. -/
def Obligations.VicZoomWritesItsPair : Prop :=
  EncodedSigned 0x26 .vicZoom ∧
  (∀ v, AcceptedOnlyIn (.vicZoom v) [.vicCmd, .vicSpeed]) ∧
  ∀ (v : Int) (s : State), s.variant.isViconCommand = true → s.Sized →
    ∃ t, exec (.vicZoom v) s = .next t ∧ KeepsAllButFrame s t (.ok .empty) ∧
      ∀ k, t.frame.bit k = pairBits 30 29 v s.frame.bit k

/-- R158: `VIC.IRIS v` writes IRIS_CLOSE (25) and IRIS_OPEN (26) by the sign of `v` and IRIS_POSITIVE. -/
def Obligations.VicIrisWritesItsPair : Prop :=
  EncodedSigned 0x27 .vicIris ∧
  (∀ v, AcceptedOnlyIn (.vicIris v) [.vicCmd, .vicSpeed]) ∧
  ∀ (v : Int) (s : State), s.variant.isViconCommand = true → s.Sized →
    ∃ t, exec (.vicIris v) s = .next t ∧ KeepsAllButFrame s t (.ok .empty) ∧
      ∀ k, t.frame.bit k =
        match s.cfg.irisPositive with
        | .opening => pairBits 25 26 v s.frame.bit k
        | .closing => pairBits 26 25 v s.frame.bit k

/-- R159: `VIC.FOCUS v` writes FOCUS_NEAR (27) and FOCUS_FAR (28) by the sign of `v` and FOCUS_POSITIVE. -/
def Obligations.VicFocusWritesItsPair : Prop :=
  EncodedSigned 0x28 .vicFocus ∧
  (∀ v, AcceptedOnlyIn (.vicFocus v) [.vicCmd, .vicSpeed]) ∧
  ∀ (v : Int) (s : State), s.variant.isViconCommand = true → s.Sized →
    ∃ t, exec (.vicFocus v) s = .next t ∧ KeepsAllButFrame s t (.ok .empty) ∧
      ∀ k, t.frame.bit k =
        match s.cfg.focusPositive with
        | .far => pairBits 27 28 v s.frame.bit k
        | .near => pairBits 28 27 v s.frame.bit k

/-- R160, R161, R162: `VIC.AUTOIRIS`, `VIC.AUTOPAN` and `VIC.LENSSPEED` write their one flag (17, 18, 24) and no other
bit. -/
def Obligations.ViconBooleansWriteTheirFlag : Prop :=
  (EncodedBit 0x29 .vicAutoIris ∧ EncodedBit 0x2A .vicAutoPan ∧ EncodedBit 0x2B .vicLensSpeed) ∧
  (∀ b, AcceptedOnlyIn (.vicAutoIris b) [.vicCmd, .vicSpeed] ∧ AcceptedOnlyIn (.vicAutoPan b) [.vicCmd, .vicSpeed] ∧
    AcceptedOnlyIn (.vicLensSpeed b) [.vicCmd, .vicSpeed]) ∧
  ∀ (b : Bool) (s : State), s.variant.isViconCommand = true → s.Sized →
    (∃ t, exec (.vicAutoIris b) s = .next t ∧ KeepsAllButFrame s t (.ok .empty) ∧
      ∀ k, t.frame.bit k = if k = 17 then b else s.frame.bit k) ∧
    (∃ t, exec (.vicAutoPan b) s = .next t ∧ KeepsAllButFrame s t (.ok .empty) ∧
      ∀ k, t.frame.bit k = if k = 18 then b else s.frame.bit k) ∧
    (∃ t, exec (.vicLensSpeed b) s = .next t ∧ KeepsAllButFrame s t (.ok .empty) ∧
      ∀ k, t.frame.bit k = if k = 24 then b else s.frame.bit k)

/-- R163: `VIC.AUX ch, b` writes bit `32 + ch` and no other; outside 1..6 it raises `RangeError(ch)`, and at or above
WIDTH `OutOfRange(32+ch, 1)`. -/
def Obligations.VicAuxWritesItsFlag : Prop :=
  EncodedAs 0x2C (fun b idx _ => (b = 0 ∨ b = 1) ∧ idx = 0) (fun b _ val => .vicAux val.toInt (b = 1)) ∧
  (∀ ch b, AcceptedOnlyIn (.vicAux ch b) [.vicCmd, .vicSpeed]) ∧
  ∀ (ch : Int) (b : Bool) (s : State), s.variant.isViconCommand = true →
    (ch < 1 ∨ 6 < ch → exec (.vicAux ch b) s = .next (s.answer (.error (.rangeError ch)))) ∧
    (1 ≤ ch → ch ≤ 6 → s.width ≤ 32 + ch.toNat →
      exec (.vicAux ch b) s = .next (s.answer (.error (.outOfRange (32 + ch.toNat) 1)))) ∧
    (1 ≤ ch → ch ≤ 6 → 32 + ch.toNat < s.width →
      ∃ t, exec (.vicAux ch b) s = .next t ∧ KeepsAllButFrame s t (.ok .empty) ∧
        ∀ k, t.frame.bit k = if k = 32 + ch.toNat then b else s.frame.bit k)

/-- R164: in a Vicon Command frame `VIC.PAN v` followed by `VIC.PAN 0` leaves PAN_LEFT and PAN_RIGHT 0. -/
def Obligations.ZeroPanClearsThePair : Prop :=
  ∀ (v : Int) (s : State), s.variant = .vicCmd → s.Sized →
    ∃ t u, exec (.vicPan v) s = .next t ∧ exec (.vicPan 0) t = .next u ∧
      u.frame.bit 22 = false ∧ u.frame.bit 21 = false

/-- R72: every byte of a Vicon frame, in any state that meets the invariant. -/
def Obligations.ViconByteMap : Prop :=
  ∀ s : State, s.Inv → s.variant.isVicon = true →
    exec .bbOctets s = .next (s.answer (.ok (.octets ((List.range ((s.width + 7) / 8)).map (viconByte s.frame)))))

/-! ### The whole machine -/

/-- R29, R200: after reset no frame is held, WIDTH is 0 and every bit is 0. -/
def Obligations.ResetHoldsNoFrame : Prop :=
  State.reset.variant = .none ∧ State.reset.width = 0 ∧ (∀ k, State.reset.frame.bit k = false) ∧
  ∀ s : State, s.resetBlock.variant = .none ∧ s.resetBlock.width = 0 ∧ (∀ k, s.resetBlock.frame.bit k = false) ∧
    s.resetBlock.cfg = s.cfg

/-- The state after reset meets the invariant under every legal CFG (R7, R29, R200), so whatever widths, policy and OPEN
codes the block has. The CFG that `State.reset` itself holds is one of them: R7's defaults are the model's choice there
(log entry 3) and its OPEN parameters are free values (log entry 2). -/
def Obligations.ResetMeetsTheInvariant : Prop :=
  (∀ c : Cfg, c.Legal → (State.resetWith c).Inv) ∧ State.reset.Inv

/-- Every step keeps the invariant: CFG legal (R7), the frame canonical (log entry 8), WIDTH the variant's and bounded
(R20, R22), no bit above WIDTH (R23), the sync flag (R26), exclusive pairs (R27), unused bits 0 and the fixed fields
(R61-R70). -/
def Obligations.EveryStepKeepsTheInvariant : Prop := ∀ s t : State, s.Inv → step s = .next t → t.Inv

/-- FRAME stays in its canonical form, from any state (log entry 8). -/
def Obligations.EveryStepKeepsTheFrameCanonical : Prop :=
  ∀ s t : State, s.frame.Wf → step s = .next t → t.frame.Wf

/-- R23: no bit at or above WIDTH ever becomes 1. -/
def Obligations.EveryStepKeepsBitsWithinTheWidth : Prop :=
  ∀ s t : State, (∀ i, s.width ≤ i → s.frame.bit i = false) → step s = .next t →
    ∀ i, t.width ≤ i → t.frame.bit i = false

/-- R26: no step clears the sync flag of a codec frame. -/
def Obligations.EveryStepKeepsTheSyncFlag : Prop :=
  ∀ s t : State, s.SyncSet → step s = .next t → t.SyncSet

/-- R27: no step leaves a Vicon command frame with both flags of a direction pair set. -/
def Obligations.EveryStepKeepsThePairsExclusive : Prop :=
  ∀ s t : State, s.PairsExclusive → step s = .next t → t.PairsExclusive

/-- R193: `FRAME.INFO` and `BB.GET` let a host observe all state: two states that meet the invariant and answer these
alike hold the same VARIANT, WIDTH and FRAME. That equal registers are equal data is log entry 8. -/
def Obligations.ReadsObserveAllState : Prop :=
  ∀ s t : State, s.Inv → t.Inv → SameAnswer .frameInfo s t → (∀ k, SameAnswer (.bbGet k) s t) →
    s.variant = t.variant ∧ s.width = t.width ∧ s.frame = t.frame
end

