-- ==== Sys2Proof/Laws/Assembler.lean ====
section
/-! SUPPORT. Reading back the texts of R81: a numeral, a run of texts between commas, the spaces around a text. -/

namespace Sys2Proof.Machine

/-! ### Numerals -/

theorem digits_append (base : Nat) (digit : Char → Option Nat) (c : Char) : ∀ (cs : List Char) (acc : Nat),
    digits base digit acc (cs ++ [c]) =
      (digits base digit acc cs).bind fun n => (digit c).map fun d => n * base + d
  | [], acc => by simp only [List.nil_append, digits, Option.bind_some]; cases digit c <;> rfl
  | x :: xs, acc => by
    simp only [List.cons_append, digits]
    cases digit x with
    | none => rfl
    | some d => exact digits_append base digit c xs _

/-- A number's own digits read back as the number. -/
theorem digits_toDigits {base : Nat} {digit : Char → Option Nat} (hb : 1 < base)
    (hd : ∀ k < base, digit k.digitChar = some k) (n : Nat) :
    digits base digit 0 (Nat.toDigits base n) = some n := by
  induction n using Nat.strongRecOn with
  | _ n ih =>
    rw [Nat.toDigits_eq_if hb]
    split
    · rename_i h
      simp [digits, hd n h]
    · rename_i h
      have hn : 0 < n := by omega
      rw [digits_append, ih (n / base) (Nat.div_lt_self hn hb), hd (n % base) (Nat.mod_lt n (by omega))]
      simp [Nat.div_add_mod']

theorem decDigit_digitChar : ∀ k < 10, decDigit k.digitChar = some k := by decide

theorem hexDigit_digitChar : ∀ k < 16, hexDigit k.digitChar = some k := by decide

/-- Every character of a numeral is one of the sixteen digits. -/
theorem mem_toDigits {base : Nat} (hb : 1 < base) {c : Char} {n : Nat} (h : c ∈ Nat.toDigits base n) :
    ∃ k < base, c = k.digitChar := by
  induction n using Nat.strongRecOn with
  | _ n ih =>
    rw [Nat.toDigits_eq_if hb] at h
    split at h
    · exact ⟨n, ‹_›, by simpa using h⟩
    · rename_i hn
      rcases List.mem_append.mp h with h | h
      · exact ih (n / base) (Nat.div_lt_self (by omega) hb) h
      · exact ⟨n % base, Nat.mod_lt n (by omega), by simpa using h⟩

/-- No text of a number holds a space or a comma, and none is empty. -/
theorem WrittenAs.plain {t : List Char} {v : Int} (h : WrittenAs t v) : ' ' ∉ t ∧ ',' ∉ t ∧ t ≠ [] := by
  have key : ∀ base, 1 < base → base ≤ 16 → ∀ n,
      ' ' ∉ Nat.toDigits base n ∧ ',' ∉ Nat.toDigits base n := fun base hb hb' n => by
    have hk : ∀ k < 16, ' ' ≠ k.digitChar ∧ ',' ≠ k.digitChar := by decide
    refine ⟨fun hm => ?_, fun hm => ?_⟩ <;> obtain ⟨k, hlt, he⟩ := mem_toDigits hb hm
    · exact (hk k (by omega)).1 he
    · exact (hk k (by omega)).2 he
  rcases h with ⟨_, rfl⟩ | ⟨_, rfl⟩ | ⟨_, rfl⟩
  · exact ⟨(key 10 (by decide) (by decide) _).1, (key 10 (by decide) (by decide) _).2,
      List.ne_nil_of_length_pos Nat.length_toDigits_pos⟩
  · simpa using key 10 (by decide) (by decide) _
  · simpa using key 16 (by decide) (by decide) _

/-- A text that starts with a decimal digit and is no hexadecimal one is read as decimal. -/
theorem asmNumber_decimal (n : Nat) : asmNumber (Nat.toDigits 10 n) = some (n : Int) := by
  have hd := digits_toDigits (by decide) decDigit_digitChar n
  have hc : ∀ c ∈ Nat.toDigits 10 n, c ≠ '-' ∧ c ≠ 'x' := fun c hm => by
    obtain ⟨k, hk, rfl⟩ := mem_toDigits (by decide) hm
    exact (by decide : ∀ k < 10, k.digitChar ≠ '-' ∧ k.digitChar ≠ 'x') k hk
  have hp : Nat.toDigits 10 n ≠ [] := List.ne_nil_of_length_pos Nat.length_toDigits_pos
  generalize Nat.toDigits 10 n = cs at hd hc hp
  unfold asmNumber
  split
  · exact absurd rfl hp
  · exact absurd rfl (hc '-' (by simp)).1
  · exact absurd rfl (hc 'x' (by simp)).2
  · exact absurd rfl (hc '-' (by simp)).1
  · exact absurd rfl (hc 'x' (by simp)).2
  · rw [hd]; rfl

/-- A number written as R81 writes it reads back as itself. -/
theorem asmNumber_of_writtenAs {t : List Char} {v : Int} (h : WrittenAs t v) : asmNumber t = some v := by
  have hp : ∀ base n, Nat.toDigits base n ≠ [] := fun _ _ => List.ne_nil_of_length_pos Nat.length_toDigits_pos
  rcases h with ⟨hv, rfl⟩ | ⟨hv, rfl⟩ | ⟨hv, rfl⟩
  · rw [asmNumber_decimal, Int.natAbs_of_nonneg hv]
  · have hd := digits_toDigits (by decide) decDigit_digitChar v.natAbs
    have := hp 10 v.natAbs
    generalize Nat.toDigits 10 v.natAbs = cs at hd this
    cases cs with
    | nil => exact absurd rfl this
    | cons c cs =>
      show (digits 10 decDigit 0 (c :: cs)).map (fun (n : Nat) => -(n : Int)) = some v
      rw [hd, Option.map_some, Option.some.injEq]
      omega
  · have hd := digits_toDigits (by decide) hexDigit_digitChar v.natAbs
    have := hp 16 v.natAbs
    generalize Nat.toDigits 16 v.natAbs = cs at hd this
    cases cs with
    | nil => exact absurd rfl this
    | cons c cs =>
      show (digits 16 hexDigit 0 (c :: cs)).map (fun (n : Nat) => (n : Int)) = some v
      rw [hd, Option.map_some, Option.some.injEq]
      omega

/-! ### Spaces and commas -/

/-- A text without a space at either end is left alone. -/
theorem trimSpaces_of_ends {cs : List Char} (hh : cs.head? ≠ some ' ') (hl : cs.getLast? ≠ some ' ') :
    trimSpaces cs = cs := by
  have key : ∀ ds : List Char, ds.head? ≠ some ' ' → ds.dropWhile (· = ' ') = ds := fun ds h => by
    cases ds with
    | nil => rfl
    | cons c ds =>
      have : c ≠ ' ' := fun e => h (by simp [e])
      simp [this]
  rw [trimSpaces, key _ hh, key _ (by rwa [List.head?_reverse]), List.reverse_reverse]

/-- A text without spaces is left alone. -/
theorem trimSpaces_plain {cs : List Char} (h : ' ' ∉ cs) : trimSpaces cs = cs :=
  trimSpaces_of_ends (fun e => h (List.mem_of_head? e)) fun e => h (List.mem_of_getLast? e)

/-- A space before a text is dropped. -/
@[simp] theorem trimSpaces_cons_space (cs : List Char) : trimSpaces (' ' :: cs) = trimSpaces cs := by
  simp [trimSpaces]

/-- Text without a comma, up to a comma or to the end, is one piece. -/
theorem splitCommas_plain : ∀ {t : List Char}, ',' ∉ t → splitCommas t = [t]
  | [], _ => rfl
  | c :: cs, h => by
    have hc : c ≠ ',' := fun e => h (by simp [e])
    rw [splitCommas, splitCommas_plain fun hm => h (by simp [hm])]
    simp [hc]

/-- There is always a first piece. -/
theorem splitCommas_ne_nil : ∀ cs : List Char, splitCommas cs ≠ []
  | [] => by simp [splitCommas]
  | c :: cs => by
    rw [splitCommas]
    split
    · simp
    · split <;> simp

/-- A comma ends the first piece. -/
theorem splitCommas_append : ∀ {t : List Char} (rest : List Char), ',' ∉ t →
    splitCommas (t ++ ',' :: rest) = t :: splitCommas rest
  | [], rest, _ => by
    rw [List.nil_append, splitCommas]
    cases hs : splitCommas rest with
    | nil => exact absurd hs (splitCommas_ne_nil rest)
    | cons p ps => simp
  | c :: cs, rest, h => by
    have hc : c ≠ ',' := fun e => h (by simp [e])
    rw [List.cons_append, splitCommas, splitCommas_append rest fun hm => h (by simp [hm])]
    simp [hc]

/-- A space before the text goes to its first piece, and trimming drops it. -/
theorem allNumbers_splitCommas_space (cs : List Char) :
    allNumbers (splitCommas (' ' :: cs)) = allNumbers (splitCommas cs) := by
  conv_lhs => rw [splitCommas]
  cases hs : splitCommas cs with
  | nil => exact absurd hs (splitCommas_ne_nil cs)
  | cons p ps => simp [allNumbers]

/-- The operands of a line end in no space. -/
theorem getLast?_operandText {texts : List (List Char)} {ops : List Int} (h : List.Forall₂ WrittenAs texts ops)
    (hne : texts ≠ []) : ∃ c, c ≠ ' ' ∧ (operandText texts).getLast? = some c := by
  induction h with
  | nil => exact absurd rfl hne
  | @cons t v ts vs ht hts ih =>
    cases ts with
    | nil =>
      obtain ⟨hs, _, hn⟩ := ht.plain
      exact ⟨t.getLast hn, fun e => hs (e ▸ List.getLast_mem hn), List.getLast?_eq_some_getLast hn⟩
    | cons u us =>
      obtain ⟨c, hc, hl⟩ := ih (by simp)
      exact ⟨c, hc, by simp [operandText, List.getLast?_append, List.getLast?_cons, hl]⟩

/-- The operands of a line read back. -/
theorem allNumbers_operandText {texts : List (List Char)} {ops : List Int} (h : List.Forall₂ WrittenAs texts ops)
    (hne : texts ≠ []) : allNumbers (splitCommas (operandText texts)) = some ops := by
  induction h with
  | nil => exact absurd rfl hne
  | @cons t v ts vs ht hts ih =>
    obtain ⟨hs, hc, _⟩ := ht.plain
    cases ts with
    | nil =>
      cases hts
      simp [operandText, splitCommas_plain hc, allNumbers, trimSpaces_plain hs, asmNumber_of_writtenAs ht]
    | cons u us =>
      rw [operandText, splitCommas_append _ hc, allNumbers, allNumbers_splitCommas_space, ih (by simp),
        trimSpaces_plain hs, asmNumber_of_writtenAs ht]
      simp

end Sys2Proof.Machine
end

