-- ==== Sys2Proof/Laws/Decode.lean ====
section
/-! SUPPORT. The fields of a packed word, and what one decoder form answers. -/

namespace Sys2Proof

/-- Bit `i` of a packed word is a bit of the field that `i` falls in (R74). -/
theorem getLsbD_packWord (op b : BitVec 8) (idx : BitVec 16) (val : BitVec 32) (i : Nat) :
    (packWord op b idx val).getLsbD i =
      if i < 8 then op.getLsbD i else if i - 8 < 8 then b.getLsbD (i - 8)
      else if i - 8 - 8 < 16 then idx.getLsbD (i - 8 - 8) else val.getLsbD (i - 8 - 8 - 16) := by
  show (val ++ idx ++ b ++ op : BitVec (32 + 16 + 8 + 8)).getLsbD i = _
  rw [BitVec.getLsbD_append, BitVec.getLsbD_append, BitVec.getLsbD_append]

@[simp] theorem opOf_packWord (op b : BitVec 8) (idx : BitVec 16) (val : BitVec 32) :
    opOf (packWord op b idx val) = op := by
  apply BitVec.eq_of_getLsbD_eq
  intro i hi
  rw [opOf, BitVec.getLsbD_extractLsb', getLsbD_packWord]
  simp [hi]

@[simp] theorem bOf_packWord (op b : BitVec 8) (idx : BitVec 16) (val : BitVec 32) :
    bOf (packWord op b idx val) = b := by
  apply BitVec.eq_of_getLsbD_eq
  intro i hi
  rw [bOf, BitVec.getLsbD_extractLsb', getLsbD_packWord]
  simp [hi]

@[simp] theorem idxOf_packWord (op b : BitVec 8) (idx : BitVec 16) (val : BitVec 32) :
    idxOf (packWord op b idx val) = idx := by
  apply BitVec.eq_of_getLsbD_eq
  intro i hi
  rw [idxOf, BitVec.getLsbD_extractLsb', getLsbD_packWord, if_neg (by omega), if_neg (by omega), if_pos (by omega),
    show 16 + i - 8 - 8 = i by omega]
  simp [hi]

@[simp] theorem valOf_packWord (op b : BitVec 8) (idx : BitVec 16) (val : BitVec 32) :
    valOf (packWord op b idx val) = val := by
  apply BitVec.eq_of_getLsbD_eq
  intro i hi
  rw [valOf, BitVec.getLsbD_extractLsb', getLsbD_packWord, if_neg (by omega), if_neg (by omega), if_neg (by omega),
    show 32 + i - 8 - 8 - 16 = i by omega]
  simp [hi]

/-- A word is its four fields (R74). -/
theorem packWord_fields (w : OpWord) : packWord (opOf w) (bOf w) (idxOf w) (valOf w) = w := by
  apply BitVec.eq_of_getLsbD_eq
  intro i hi
  rw [getLsbD_packWord]
  simp only [opOf, bOf, idxOf, valOf, BitVec.getLsbD_extractLsb']
  split
  · simp [*]
  split
  · rw [show 8 + (i - 8) = i by omega]; simp [*]
  split
  · rw [show 16 + (i - 8 - 8) = i by omega]; simp [*]
  · rw [show 32 + (i - 8 - 8 - 16) = i by omega]
    have h : i - 8 - 8 - 16 < 32 := by omega
    simp [h]

/-- Masking a packed word masks its fields. -/
theorem packWord_and (a b a' b' : BitVec 8) (i i' : BitVec 16) (v v' : BitVec 32) :
    packWord a b i v &&& packWord a' b' i' v' = packWord (a &&& a') (b &&& b') (i &&& i') (v &&& v') := by
  apply BitVec.eq_of_getLsbD_eq
  intro k _
  simp only [BitVec.getLsbD_and, getLsbD_packWord]
  split
  · rfl
  split
  · rfl
  split <;> rfl

theorem packWord_inj {a b a' b' : BitVec 8} {i i' : BitVec 16} {v v' : BitVec 32}
    (h : packWord a b i v = packWord a' b' i' v') : a = a' ∧ b = b' ∧ i = i' ∧ v = v' :=
  ⟨by simpa using congrArg opOf h, by simpa using congrArg bOf h, by simpa using congrArg idxOf h,
    by simpa using congrArg valOf h⟩

/-- `B[7:1] = 0` leaves two values for `B`. -/
theorem upperBits_eq_zero : ∀ b : BitVec 8, b.extractLsb' 1 7 = 0 ↔ b = 0 ∨ b = 1 := by decide

@[simp] theorem upperBits_bitField (b : Bool) : (bitField b).extractLsb' 1 7 = 0 := by cases b <;> decide

@[simp] theorem bitField_getElem_zero (b : Bool) : (bitField b)[0] = b := by cases b <;> decide

/-- A value of `VAL` read as signed fits the signed operand range (R75, R81). -/
theorem fitsSigned_sext32 (x : BitVec 32) : fitsSigned (sext32 x) = true := by
  have h := x.isLt
  rw [fitsSigned, decide_eq_true_eq, sext32, BitVec.toInt_eq_toNat_cond]
  split <;> omega

/-- A signed operand that fits survives its field (R75). -/
theorem sext32_ofInt {v : Int} (h : fitsSigned v = true) : sext32 (BitVec.ofInt 32 v) = v := by
  rw [fitsSigned, decide_eq_true_eq] at h
  simp only [sext32, BitVec.toInt_ofInt, Int.bmod]
  omega

end Sys2Proof
end

