-- ==== Sys2Proof/Laws/State.lean ====
section
/-! SUPPORT. One lemma per field and update of State. -/

namespace Sys2Proof.Machine

@[simp] theorem State.answer_variant (s : State) (r : Response) : (s.answer r).variant = s.variant := rfl
@[simp] theorem State.answer_width (s : State) (r : Response) : (s.answer r).width = s.width := rfl
@[simp] theorem State.answer_frame (s : State) (r : Response) : (s.answer r).frame = s.frame := rfl
@[simp] theorem State.answer_cfg (s : State) (r : Response) : (s.answer r).cfg = s.cfg := rfl
@[simp] theorem State.answer_requests (s : State) (r : Response) : (s.answer r).requests = s.requests := rfl
@[simp] theorem State.answer_responses (s : State) (r : Response) :
    (s.answer r).responses = s.responses ++ [r] := rfl

@[simp] theorem State.withFrame_variant (s : State) (f : Frame) : (s.withFrame f).variant = s.variant := rfl
@[simp] theorem State.withFrame_width (s : State) (f : Frame) : (s.withFrame f).width = s.width := rfl
@[simp] theorem State.withFrame_frame (s : State) (f : Frame) : (s.withFrame f).frame = f := rfl
@[simp] theorem State.withFrame_cfg (s : State) (f : Frame) : (s.withFrame f).cfg = s.cfg := rfl
@[simp] theorem State.withFrame_requests (s : State) (f : Frame) : (s.withFrame f).requests = s.requests := rfl
@[simp] theorem State.withFrame_responses (s : State) (f : Frame) : (s.withFrame f).responses = s.responses := rfl

@[simp] theorem State.hold_variant (s : State) (v : Variant) (w : Nat) (f : Frame) :
    (s.hold v w f).variant = v := rfl
@[simp] theorem State.hold_width (s : State) (v : Variant) (w : Nat) (f : Frame) : (s.hold v w f).width = w := rfl
@[simp] theorem State.hold_frame (s : State) (v : Variant) (w : Nat) (f : Frame) : (s.hold v w f).frame = f := rfl
@[simp] theorem State.hold_cfg (s : State) (v : Variant) (w : Nat) (f : Frame) : (s.hold v w f).cfg = s.cfg := rfl
@[simp] theorem State.hold_requests (s : State) (v : Variant) (w : Nat) (f : Frame) :
    (s.hold v w f).requests = s.requests := rfl
@[simp] theorem State.hold_responses (s : State) (v : Variant) (w : Nat) (f : Frame) :
    (s.hold v w f).responses = s.responses := rfl

@[simp] theorem State.load_variant (s : State) (ws : List OpWord) : (s.load ws).variant = s.variant := rfl
@[simp] theorem State.load_width (s : State) (ws : List OpWord) : (s.load ws).width = s.width := rfl
@[simp] theorem State.load_frame (s : State) (ws : List OpWord) : (s.load ws).frame = s.frame := rfl
@[simp] theorem State.load_cfg (s : State) (ws : List OpWord) : (s.load ws).cfg = s.cfg := rfl
@[simp] theorem State.load_requests (s : State) (ws : List OpWord) : (s.load ws).requests = ws ++ s.requests := rfl
@[simp] theorem State.load_responses (s : State) (ws : List OpWord) : (s.load ws).responses = s.responses := rfl

/-- The response never mixes with the state: two answered states agree exactly when response and state agree. -/
theorem State.answer_inj {s t : State} {r q : Response} : s.answer r = t.answer q ↔ s = t ∧ r = q := by
  cases s; cases t
  simp [State.answer]
  tauto

end Sys2Proof.Machine
end

