-- ==== Sys2Proof/Laws/Ops.lean ====
section
/-! SUPPORT. What each shared operation can do, said once: bits read after a write, the canonical form kept, Commit,
making a frame, and the checks. -/

namespace Sys2Proof.Machine

/-! ### Reading a bit after a write -/

@[simp] theorem Frame.bit_zeros (k : Nat) : Frame.zeros.bit k = false := rfl

theorem mem_insertIndex {i k : Nat} : ∀ {xs : List Nat}, k ∈ insertIndex i xs ↔ k = i ∨ k ∈ xs
  | [] => by simp [insertIndex]
  | x :: xs => by
    simp only [insertIndex]
    split
    · simp
    · split
      · simp_all
      · simp only [List.mem_cons, mem_insertIndex]
        tauto

@[simp] theorem Frame.bit_writeBit (f : Frame) (i k : Nat) (b : Bool) :
    (f.writeBit i b).bit k = if k = i then b else f.bit k := by
  cases b
  · by_cases h : k = i <;> simp [Frame.writeBit, Frame.bit, h]
  · by_cases h : k = i <;> simp [Frame.writeBit, Frame.bit, mem_insertIndex, h]

/-- Reading after a field write gives the field's bit in its span, and what was there outside (R42). -/
theorem Frame.bit_writeBits (f : Frame) (first value k : Nat) : ∀ count : Nat,
    (f.writeBits first value count).bit k =
      if first ≤ k ∧ k < first + count then value.testBit (k - first) else f.bit k
  | 0 => by simp [Frame.writeBits]
  | count + 1 => by
    rw [Frame.writeBits, Frame.bit_writeBit, Frame.bit_writeBits f first value k count]
    by_cases h : k = first + count
    · subst h; simp
    · have : (first ≤ k ∧ k < first + (count + 1)) ↔ (first ≤ k ∧ k < first + count) := by omega
      simp [h, this]

@[simp] theorem Frame.bit_write (f : Frame) (d : Descriptor) (k : Nat) :
    (f.write d).bit k =
      if d.first ≤ k ∧ k < d.first + d.count then d.value.testBit (k - d.first) else f.bit k :=
  Frame.bit_writeBits f d.first d.value k d.count

@[simp] theorem Frame.writeAll_nil (f : Frame) : f.writeAll [] = f := rfl

@[simp] theorem Frame.writeAll_cons (f : Frame) (d : Descriptor) (ds : List Descriptor) :
    f.writeAll (d :: ds) = (f.write d).writeAll ds := rfl

theorem Frame.writeAll_append (f : Frame) (ds es : List Descriptor) :
    f.writeAll (ds ++ es) = (f.writeAll ds).writeAll es := by
  induction ds generalizing f with
  | nil => rfl
  | cons d ds ih => simp [ih]

/-- A bit no descriptor spans is left alone (R44). -/
theorem Frame.bit_writeAll_of_outside {k : Nat} : ∀ {ds : List Descriptor} {f : Frame},
    (∀ d ∈ ds, k < d.first ∨ d.first + d.count ≤ k) → (f.writeAll ds).bit k = f.bit k
  | [], _, _ => rfl
  | d :: ds, f, h => by
    rw [Frame.writeAll_cons, Frame.bit_writeAll_of_outside fun e he => h e (List.mem_cons_of_mem _ he),
      Frame.bit_write, if_neg]
    have := h d List.mem_cons_self
    omega

/-! ### Fields read back -/

/-- Bit `j` of a field read back is FRAME[first+j]. -/
theorem Frame.testBit_field (f : Frame) (first j : Nat) : ∀ count : Nat,
    (f.field first count).testBit j = (decide (j < count) && f.bit (first + j)) ∧
      f.field first count < 2 ^ count
  | 0 => by simp [Frame.field]
  | count + 1 => by
    have ih := Frame.testBit_field f first j count
    have hb : f.field first (count + 1) =
        2 ^ count * (if f.bit (first + count) then 1 else 0) + f.field first count := by
      simp only [Frame.field]; split <;> omega
    refine ⟨?_, ?_⟩
    · rw [hb, Nat.testBit_two_pow_mul_add _ ih.2]
      by_cases h : j < count
      · rw [if_pos h, ih.1]; simp [h, Nat.lt_succ_of_lt h]
      · by_cases h' : j = count
        · subst h'; by_cases hc : f.bit (first + j) <;> simp [hc]
        · have hz : j - count ≠ 0 := by omega
          have hn : ¬ j < count + 1 := by omega
          rw [if_neg h]
          by_cases hc : f.bit (first + count)
          · simp only [hc, if_true, hn]
            have : Nat.testBit 1 (j - count) = false := by
              rw [Nat.testBit_one_eq_true_iff_self_eq_zero.not.mpr hz |> Bool.eq_false_iff.mpr]
            simp [this]
          · simp [hc, hn]
    · have := ih.2
      rw [hb, Nat.pow_succ]; split <;> omega

theorem Frame.field_lt (f : Frame) (first count : Nat) : f.field first count < 2 ^ count :=
  (Frame.testBit_field f first 0 count).2

/-- A field depends only on the bits of its span. -/
theorem Frame.field_congr {f g : Frame} {first : Nat} : ∀ {count : Nat},
    (∀ j, j < count → f.bit (first + j) = g.bit (first + j)) → f.field first count = g.field first count
  | 0, _ => rfl
  | count + 1, h => by
    simp only [Frame.field, h count (Nat.lt_succ_self _),
      Frame.field_congr (count := count) fun j hj => h j (Nat.lt_succ_of_lt hj)]

/-- A field whose bits are those of `v` reads `v mod 2^count`. -/
theorem Frame.field_eq_mod {f : Frame} {first count v : Nat}
    (h : ∀ j, j < count → f.bit (first + j) = v.testBit j) : f.field first count = v % 2 ^ count := by
  apply Nat.eq_of_testBit_eq
  intro j
  rw [(Frame.testBit_field f first j count).1, Nat.testBit_mod_two_pow]
  by_cases hj : j < count <;> simp [hj, h]

/-! ### The canonical form is kept -/

theorem insertIndex_pairwise {i : Nat} : ∀ {xs : List Nat}, xs.Pairwise (· < ·) → (insertIndex i xs).Pairwise (· < ·)
  | [], _ => by simp [insertIndex]
  | x :: xs, h => by
    rw [List.pairwise_cons] at h
    simp only [insertIndex]
    split
    · rename_i hi
      exact List.pairwise_cons.mpr ⟨fun a ha => by
        rcases List.mem_cons.mp ha with rfl | ha
        · exact hi
        · exact Nat.lt_trans hi (h.1 a ha), List.pairwise_cons.mpr h⟩
    · split
      · exact List.pairwise_cons.mpr h
      · refine List.pairwise_cons.mpr ⟨fun a ha => ?_, insertIndex_pairwise h.2⟩
        rcases mem_insertIndex.mp ha with rfl | ha
        · omega
        · exact h.1 a ha

theorem Frame.wf_zeros : Frame.zeros.Wf := List.Pairwise.nil

theorem Frame.wf_writeBit {f : Frame} (h : f.Wf) (i : Nat) (b : Bool) : (f.writeBit i b).Wf := by
  cases b
  · exact List.Pairwise.filter _ h
  · exact insertIndex_pairwise h

theorem Frame.wf_writeBits {f : Frame} (h : f.Wf) (first value : Nat) : ∀ count, (f.writeBits first value count).Wf
  | 0 => h
  | count + 1 => Frame.wf_writeBit (Frame.wf_writeBits h first value count) _ _

theorem Frame.wf_writeAll : ∀ {ds : List Descriptor} {f : Frame}, f.Wf → (f.writeAll ds).Wf
  | [], _, h => h
  | d :: _, f, h => Frame.wf_writeAll (f := f.write d) (Frame.wf_writeBits h d.first d.value d.count)

/-- In canonical form a frame is determined by its bits. -/
theorem Frame.ext_of_bit {f g : Frame} (hf : f.Wf) (hg : g.Wf) (h : ∀ k, f.bit k = g.bit k) : f = g := by
  obtain ⟨xs⟩ := f
  obtain ⟨ys⟩ := g
  have hm : ∀ k, k ∈ xs ↔ k ∈ ys := fun k => by simpa [Frame.bit] using h k
  congr 1
  exact List.Perm.eq_of_pairwise (le := (· < ·)) (fun a b _ _ h1 h2 => absurd h1 (Nat.lt_asymm h2)) hf hg
    ((List.perm_ext_iff_of_nodup (hf.imp Nat.ne_of_lt) (hg.imp Nat.ne_of_lt)).mpr hm)

/-! ### The span check -/

@[simp] theorem firstUnfit_nil (w : Nat) : firstUnfit w [] = none := rfl

@[simp] theorem firstUnfit_cons (w : Nat) (d : Descriptor) (ds : List Descriptor) :
    firstUnfit w (d :: ds) = if d.first + d.count ≤ w then firstUnfit w ds else some d := by
  simp [firstUnfit, Descriptor.fits]

/-- No descriptor is out of range exactly when each one fits (R43). -/
theorem firstUnfit_eq_none {w : Nat} : ∀ {ds : List Descriptor},
    firstUnfit w ds = none ↔ ∀ d ∈ ds, d.first + d.count ≤ w
  | [] => by simp
  | d :: ds => by
    rw [firstUnfit_cons]
    by_cases h : d.first + d.count ≤ w <;> simp [h, firstUnfit_eq_none]

theorem firstUnfit_append_of_fits {w : Nat} {ds es : List Descriptor} (h : firstUnfit w ds = none) :
    firstUnfit w (ds ++ es) = firstUnfit w es := by
  induction ds with
  | nil => rfl
  | cons d ds ih =>
    rw [firstUnfit_cons] at h
    by_cases hd : d.first + d.count ≤ w
    · rw [if_pos hd] at h; simp [hd, ih h]
    · simp [hd] at h

/-- What is written at or above the width stays as it was, when every descriptor fits. -/
theorem Frame.bit_writeAll_above {w k : Nat} {ds : List Descriptor} {f : Frame} (h : firstUnfit w ds = none)
    (hk : w ≤ k) : (f.writeAll ds).bit k = f.bit k :=
  Frame.bit_writeAll_of_outside fun d hd => Or.inr (Nat.le_trans (firstUnfit_eq_none.mp h d hd) hk)

/-! ### The shared operations -/

theorem commit_of_fits {ds : List Descriptor} {s : State} (h : firstUnfit s.width ds = none) :
    commit ds s = .next ((s.withFrame (s.frame.writeAll ds)).answer (.ok .empty)) := by
  simp [commit, h, respond]

theorem commit_of_unfit {ds : List Descriptor} {s : State} {d : Descriptor} (h : firstUnfit s.width ds = some d) :
    commit ds s = .next (s.answer (.error (.outOfRange d.first d.count))) := by
  simp [commit, h, raise]

theorem newFrame_of_fits {v : Variant} {w : Nat} {ds : List Descriptor} {s : State} (h : firstUnfit w ds = none) :
    newFrame v w ds s = .next ((s.hold v w (Frame.zeros.writeAll ds)).answer (.ok .empty)) := by
  simp [newFrame, h, respond]

theorem newFrame_of_unfit {v : Variant} {w : Nat} {ds : List Descriptor} {s : State} {d : Descriptor}
    (h : firstUnfit w ds = some d) :
    newFrame v w ds s = .next (s.answer (.error (.outOfRange d.first d.count))) := by
  simp [newFrame, h, raise]

theorem onlyIn_of_mem {vs : List Variant} {s : State} {k : Answer} (h : s.variant ∈ vs) : onlyIn vs s k = k := by
  simp [onlyIn, h]

theorem onlyIn_of_not_mem {vs : List Variant} {s : State} {k : Answer} (h : s.variant ∉ vs) :
    onlyIn vs s k = .next (s.answer (.error (.wrongVariant s.variant.code))) := by
  simp [onlyIn, h, raise]

@[simp] theorem rejectIf_true (v : Int) (s : State) (k : Answer) :
    rejectIf true v s k = .next (s.answer (.error (.rangeError v))) := rfl

@[simp] theorem rejectIf_false (v : Int) (s : State) (k : Answer) : rejectIf false v s k = k := rfl

/-! ### The three shapes of an answer -/

/-- What any operation can answer from `s`: a response alone, a response after writes that all fit, or a response after
a new frame whose fixed bits fit. -/
inductive AnswersFrom (s : State) : Answer → Prop where
  /-- Only the response is added. -/
  | only (r : Response) : AnswersFrom s (.next (s.answer r))
  /-- Writes that fit. -/
  | wrote (ds : List Descriptor) (h : firstUnfit s.width ds = none) :
      AnswersFrom s (.next ((s.withFrame (s.frame.writeAll ds)).answer (.ok .empty)))
  /-- A new frame. -/
  | made (v : Variant) (w : Nat) (ds : List Descriptor) (h : firstUnfit w ds = none) :
      AnswersFrom s (.next ((s.hold v w (Frame.zeros.writeAll ds)).answer (.ok .empty)))

theorem commit_answers (ds : List Descriptor) (s : State) : AnswersFrom s (commit ds s) := by
  cases h : firstUnfit s.width ds with
  | none => rw [commit_of_fits h]; exact .wrote ds h
  | some d => rw [commit_of_unfit h]; exact .only _

theorem newFrame_answers (v : Variant) (w : Nat) (ds : List Descriptor) (s : State) :
    AnswersFrom s (newFrame v w ds s) := by
  cases h : firstUnfit w ds with
  | none => rw [newFrame_of_fits h]; exact .made v w ds h
  | some d => rw [newFrame_of_unfit h]; exact .only _

theorem onlyIn_answers {vs : List Variant} {s : State} {k : Answer} (h : AnswersFrom s k) :
    AnswersFrom s (onlyIn vs s k) := by
  by_cases hm : s.variant ∈ vs
  · rwa [onlyIn_of_mem hm]
  · rw [onlyIn_of_not_mem hm]; exact .only _

theorem rejectIf_answers {bad : Bool} {v : Int} {s : State} {k : Answer} (h : AnswersFrom s k) :
    AnswersFrom s (rejectIf bad v s k) := by
  cases bad
  · exact h
  · exact .only _

end Sys2Proof.Machine
end

