-- ==== Sys2Proof/Laws/Exec.lean ====
section
/-! SUPPORT. What exec can answer: always a next state, of one of three shapes. -/

namespace Sys2Proof.Machine

theorem newManchester_answers (v : Variant) (d : BitVec 1) (ds : List Descriptor) (s : State) :
    AnswersFrom s (newManchester v d ds s) := newFrame_answers _ _ _ _

theorem manLens_answers (c : BitVec 3) (v : Int) (s : State) : AnswersFrom s (manLens c v s) := by
  apply onlyIn_answers
  split
  · exact .only _
  · exact commit_answers _ _

theorem vicMove_answers (n p h l : Nat) (v : Int) (s : State) : AnswersFrom s (vicMove n p h l v s) := by
  apply onlyIn_answers
  split
  · exact rejectIf_answers (commit_answers _ _)
  · exact commit_answers _ _

theorem vicSet_answers (ds : List Descriptor) (s : State) : AnswersFrom s (vicSet ds s) :=
  onlyIn_answers (commit_answers _ _)

/-- Every operation answers from every state, in one of the three shapes. -/
theorem exec_answers (i : Instr) (s : State) : AnswersFrom s (exec i s) := by
  cases i with
  | bbNew n =>
    simp only [exec, execBbNew]
    split
    · exact .only _
    · exact newFrame_answers _ _ _ _
  | bbGet k =>
    simp only [exec, execBbGet]
    split <;> exact .only _
  | bbSet k b => exact onlyIn_answers (commit_answers _ _)
  | bbWrf first count value => exact onlyIn_answers (commit_answers _ _)
  | bbOctets => exact .only _
  | frameDiscard => exact .made .none 0 [] rfl
  | frameInfo => exact .only _
  | manNewPt => rw [exec, execManNewPt]; exact newManchester_answers _ _ _ _
  | manNewLens => rw [exec, execManNewLens]; exact newManchester_answers _ _ _ _
  | manNewAux => rw [exec, execManNewAux]; exact newManchester_answers _ _ _ _
  | manRecv r => exact onlyIn_answers (rejectIf_answers (commit_answers _ _))
  | manPan v => exact onlyIn_answers (rejectIf_answers (commit_answers _ _))
  | manTilt v => exact onlyIn_answers (rejectIf_answers (commit_answers _ _))
  | manZoom v => exact manLens_answers _ _ _
  | manFocus v => exact manLens_answers _ _ _
  | manIris v => exact manLens_answers _ _ _
  | manAux ch => exact onlyIn_answers (rejectIf_answers (commit_answers _ _))
  | vicNewStatus => rw [exec, execVicNewStatus]; exact newFrame_answers _ _ _ _
  | vicNewCmd => rw [exec, execVicNewCmd]; exact newFrame_answers _ _ _ _
  | vicNewSpeed => rw [exec, execVicNewSpeed]; exact newFrame_answers _ _ _ _
  | vicRecv r => exact onlyIn_answers (rejectIf_answers (commit_answers _ _))
  | vicPan v => exact vicMove_answers _ _ _ _ _ _
  | vicTilt v => exact vicMove_answers _ _ _ _ _ _
  | vicZoom v => exact vicSet_answers _ _
  | vicIris v => simp only [exec, execVicIris]; split <;> exact vicSet_answers _ _
  | vicFocus v => simp only [exec, execVicFocus]; split <;> exact vicSet_answers _ _
  | vicAutoIris b => exact vicSet_answers _ _
  | vicAutoPan b => exact vicSet_answers _ _
  | vicLensSpeed b => exact vicSet_answers _ _
  | vicAux ch b => exact onlyIn_answers (rejectIf_answers (commit_answers _ _))

/-- Every word is answered, legal or not. -/
theorem serve_answers (w : OpWord) (s : State) : AnswersFrom s (serve w s) := by
  simp only [serve]
  split
  · exact exec_answers _ _
  · exact .only _

end Sys2Proof.Machine
end

