-- ==== Sys2Proof/Laws/Fields.lean ====
section
/-! SUPPORT. What the flag, pair and octet operations do to and read from the bits of FRAME. -/

namespace Sys2Proof.Machine

/-- A flag's write sets its own bit and no other. -/
@[simp] theorem Frame.bit_write_flagField (f : Frame) (i k : Nat) (b : Bool) :
    (f.write (flagField i b)).bit k = if k = i then b else f.bit k := by
  rw [Frame.bit_write]
  by_cases h : k = i
  · subst h; cases b <;> simp [flagField]
  · rw [if_neg h, if_neg (by simp only [flagField]; omega)]

/-- A pair's flags lie within the width, so its writes fit (R154). -/
theorem firstUnfit_pair {neg pos w : Nat} {v : Int} (hn : neg < w) (hp : pos < w) :
    firstUnfit w (pair neg pos v) = none := by
  rw [firstUnfit_eq_none]
  intro d hd
  simp only [pair, List.mem_append, List.mem_cons, List.not_mem_nil, or_false] at hd
  rcases hd with ((rfl | rfl) | hd) | hd
  · exact hn
  · exact hp
  all_goals
    split at hd
    · obtain rfl := List.mem_singleton.mp hd
      assumption
    · cases hd

/-- A directional setter leaves each flag of its pair at the sign of `v`, and every other bit alone (R73, R154). -/
theorem Frame.bit_writeAll_pair {neg pos : Nat} (h : neg ≠ pos) (v : Int) (f : Frame) (k : Nat) :
    (f.writeAll (pair neg pos v)).bit k = pairBits neg pos v f.bit k := by
  rcases Int.lt_trichotomy v 0 with hv | rfl | hv
  · simp only [pair, pairBits, hv, Int.not_lt.mpr (Int.le_of_lt hv), if_true, if_false, decide_true,
      decide_false, List.append_nil, List.cons_append, List.nil_append, Frame.writeAll_cons, Frame.writeAll_nil,
      Frame.bit_write_flagField]
    by_cases hn : k = neg <;> simp [hn]
  · simp only [pair, pairBits, gt_iff_lt, Int.lt_irrefl, if_false, decide_false, List.append_nil,
      Frame.writeAll_cons, Frame.writeAll_nil, Frame.bit_write_flagField]
    by_cases hn : k = neg <;> by_cases hp : k = pos <;> simp [hn, hp]
  · simp only [pair, pairBits, hv, Int.not_lt.mpr (Int.le_of_lt hv), if_true, if_false, decide_true,
      decide_false, List.append_nil, List.cons_append, List.nil_append, Frame.writeAll_cons, Frame.writeAll_nil,
      Frame.bit_write_flagField]
    by_cases hp : k = pos <;> by_cases hn : k = neg <;> simp [hp, hn, h, Ne.symm h]

/-- Bit `j` of octet `k` is FRAME[8k+j] below WIDTH and 0 above (R45). -/
theorem getLsbD_octet (s : State) (k j : Nat) (hj : j < 8) :
    (octet s k).getLsbD j = (decide (8 * k + j < s.width) && s.frame.bit (8 * k + j)) := by
  have key : ∀ b0 b1 b2 b3 b4 b5 b6 b7 : Bool, ∀ i < 8,
      (BitVec.ofNat 8 [if b0 then 1 else 0, if b1 then 2 else 0, if b2 then 4 else 0, if b3 then 8 else 0,
        if b4 then 16 else 0, if b5 then 32 else 0, if b6 then 64 else 0, if b7 then 128 else 0].sum).getLsbD i =
      [b0, b1, b2, b3, b4, b5, b6, b7].getD i false := by decide +kernel
  have h := key (decide (8 * k + 0 < s.width) && s.frame.bit (8 * k + 0))
    (decide (8 * k + 1 < s.width) && s.frame.bit (8 * k + 1)) (decide (8 * k + 2 < s.width) && s.frame.bit (8 * k + 2))
    (decide (8 * k + 3 < s.width) && s.frame.bit (8 * k + 3)) (decide (8 * k + 4 < s.width) && s.frame.bit (8 * k + 4))
    (decide (8 * k + 5 < s.width) && s.frame.bit (8 * k + 5)) (decide (8 * k + 6 < s.width) && s.frame.bit (8 * k + 6))
    (decide (8 * k + 7 < s.width) && s.frame.bit (8 * k + 7)) j hj
  simp only [Bool.and_eq_true, decide_eq_true_eq] at h
  refine h.trans ?_
  have : j = 0 ∨ j = 1 ∨ j = 2 ∨ j = 3 ∨ j = 4 ∨ j = 5 ∨ j = 6 ∨ j = 7 := by omega
  rcases this with rfl | rfl | rfl | rfl | rfl | rfl | rfl | rfl <;> rfl

end Sys2Proof.Machine
end

