-- ==== Sys2Proof/Laws/PerInstr.lean ====
section
/-! SUPPORT. The per-instruction family EncodedRow: the encoder puts each operation into its own row of the opcode
table (30_encoding.md R78), whatever its operands. -/

namespace Sys2Proof

/-- The row of a mask and match given field by field holds a word packed from fields that agree with it. -/
theorem row_of_fields {m : String} {mask mtch : OpWord} (op b : BitVec 8) (idx : BitVec 16) (val : BitVec 32)
    (mb : BitVec 8) (mi : BitVec 16) (mv : BitVec 32) (hrow : ⟨m, mask, mtch⟩ ∈ opcodeTable)
    (hmask : mask = packWord 0xFF mb mi mv) (hmatch : mtch = packWord op 0 0 0)
    (hb : b &&& mb = 0) (hi : idx &&& mi = 0) (hv : val &&& mv = 0) :
    ∃ r ∈ opcodeTable, r.mnemonic = m ∧ packWord op b idx val &&& r.mask = r.matchWord := by
  refine ⟨_, hrow, rfl, ?_⟩
  have hop : op &&& 0xFF#8 = op := BitVec.and_allOnes
  rw [hmask, hmatch, packWord_and, hb, hi, hv]
  exact congrArg (fun x => packWord x 0 0 0) hop

theorem bitField_and (b : Bool) : bitField b &&& 0xFE = 0 := by cases b <;> decide

namespace Laws.EncodedRow

/-- The word of an operation matches the table's row of its name. -/
def Statement (i : Instr) : Prop :=
  ∃ r ∈ opcodeTable, r.mnemonic = i.mnemonic ∧ encode i &&& r.mask = r.matchWord

theorem bbNew (n : Nat) : Statement (.bbNew n) :=
  row_of_fields (m := "BB.NEW") 0x01 0 _ 0 0xFF 0 0xFFFFFFFF (mask := 0xFFFFFFFF0000FFFF) (mtch := 0x01) (by decide) (by decide)
    (by decide) (by decide) BitVec.and_zero (by decide)
theorem bbGet (i : Nat) : Statement (.bbGet i) :=
  row_of_fields (m := "BB.GET") 0x02 0 _ 0 0xFF 0 0xFFFFFFFF (mask := 0xFFFFFFFF0000FFFF) (mtch := 0x02) (by decide) (by decide)
    (by decide) (by decide) BitVec.and_zero (by decide)
theorem bbSet (i : Nat) (b : Bool) : Statement (.bbSet i b) :=
  row_of_fields (m := "BB.SET") 0x03 _ _ 0 0xFE 0 0xFFFFFFFF (mask := 0xFFFFFFFF0000FEFF) (mtch := 0x03) (by decide) (by decide)
    (by decide) (bitField_and b) BitVec.and_zero (by decide)
theorem bbWrf (first count value : Nat) : Statement (.bbWrf first count value) :=
  row_of_fields (m := "BB.WRF") 0x04 _ _ _ 0 0 0 (mask := 0xFF) (mtch := 0x04) (by decide) (by decide) (by decide)
    BitVec.and_zero BitVec.and_zero BitVec.and_zero
theorem bbOctets : Statement .bbOctets := by unfold Statement; decide
theorem frameDiscard : Statement .frameDiscard := by unfold Statement; decide
theorem frameInfo : Statement .frameInfo := by unfold Statement; decide
theorem manNewPt : Statement .manNewPt := by unfold Statement; decide
theorem manNewLens : Statement .manNewLens := by unfold Statement; decide
theorem manNewAux : Statement .manNewAux := by unfold Statement; decide

/-- Every row of the form "VAL". -/
theorem signedRow {m : String} {mtch : OpWord} (op : BitVec 8) (v : Int)
    (hrow : ⟨m, 0x00000000FFFFFFFF, mtch⟩ ∈ opcodeTable) (hmatch : mtch = packWord op 0 0 0) :
    ∃ r ∈ opcodeTable, r.mnemonic = m ∧ packWord op 0 0 (BitVec.ofInt 32 v) &&& r.mask = r.matchWord :=
  row_of_fields op 0 0 _ 0xFF 0xFFFF 0 hrow (by decide) hmatch (by decide) (by decide) BitVec.and_zero

/-- Every row of the form "B0". -/
theorem bitRow {m : String} {mtch : OpWord} (op : BitVec 8) (b : Bool)
    (hrow : ⟨m, 0xFFFFFFFFFFFFFEFF, mtch⟩ ∈ opcodeTable) (hmatch : mtch = packWord op 0 0 0) :
    ∃ r ∈ opcodeTable, r.mnemonic = m ∧ packWord op (bitField b) 0 0 &&& r.mask = r.matchWord :=
  row_of_fields op _ 0 0 0xFE 0xFFFF 0xFFFFFFFF hrow (by decide) hmatch (bitField_and b) (by decide) (by decide)

theorem manRecv (r : Int) : Statement (.manRecv r) := signedRow (m := "MAN.RECV") 0x13 r (mtch := 0x13) (by decide) (by decide)
theorem manPan (v : Int) : Statement (.manPan v) := signedRow (m := "MAN.PAN") 0x14 v (mtch := 0x14) (by decide) (by decide)
theorem manTilt (v : Int) : Statement (.manTilt v) := signedRow (m := "MAN.TILT") 0x15 v (mtch := 0x15) (by decide) (by decide)
theorem manZoom (v : Int) : Statement (.manZoom v) := signedRow (m := "MAN.ZOOM") 0x16 v (mtch := 0x16) (by decide) (by decide)
theorem manFocus (v : Int) : Statement (.manFocus v) := signedRow (m := "MAN.FOCUS") 0x17 v (mtch := 0x17) (by decide) (by decide)
theorem manIris (v : Int) : Statement (.manIris v) := signedRow (m := "MAN.IRIS") 0x18 v (mtch := 0x18) (by decide) (by decide)
theorem manAux (ch : Int) : Statement (.manAux ch) := signedRow (m := "MAN.AUX") 0x19 ch (mtch := 0x19) (by decide) (by decide)
theorem vicNewStatus : Statement .vicNewStatus := by unfold Statement; decide
theorem vicNewCmd : Statement .vicNewCmd := by unfold Statement; decide
theorem vicNewSpeed : Statement .vicNewSpeed := by unfold Statement; decide
theorem vicRecv (r : Int) : Statement (.vicRecv r) := signedRow (m := "VIC.RECV") 0x23 r (mtch := 0x23) (by decide) (by decide)
theorem vicPan (v : Int) : Statement (.vicPan v) := signedRow (m := "VIC.PAN") 0x24 v (mtch := 0x24) (by decide) (by decide)
theorem vicTilt (v : Int) : Statement (.vicTilt v) := signedRow (m := "VIC.TILT") 0x25 v (mtch := 0x25) (by decide) (by decide)
theorem vicZoom (v : Int) : Statement (.vicZoom v) := signedRow (m := "VIC.ZOOM") 0x26 v (mtch := 0x26) (by decide) (by decide)
theorem vicIris (v : Int) : Statement (.vicIris v) := signedRow (m := "VIC.IRIS") 0x27 v (mtch := 0x27) (by decide) (by decide)
theorem vicFocus (v : Int) : Statement (.vicFocus v) := signedRow (m := "VIC.FOCUS") 0x28 v (mtch := 0x28) (by decide) (by decide)
theorem vicAutoIris (b : Bool) : Statement (.vicAutoIris b) := bitRow (m := "VIC.AUTOIRIS") 0x29 b (mtch := 0x29) (by decide) (by decide)
theorem vicAutoPan (b : Bool) : Statement (.vicAutoPan b) := bitRow (m := "VIC.AUTOPAN") 0x2A b (mtch := 0x2A) (by decide) (by decide)
theorem vicLensSpeed (b : Bool) : Statement (.vicLensSpeed b) :=
  bitRow (m := "VIC.LENSSPEED") 0x2B b (mtch := 0x2B) (by decide) (by decide)
theorem vicAux (ch : Int) (b : Bool) : Statement (.vicAux ch b) :=
  row_of_fields (m := "VIC.AUX") 0x2C _ 0 _ 0xFE 0xFFFF 0 (mask := 0x00000000FFFFFEFF) (mtch := 0x2C) (by decide) (by decide)
    (by decide) (bitField_and b) (by decide) BitVec.and_zero

end Laws.EncodedRow

end Sys2Proof
end

