-- ==== Sys2Proof/Laws/Run.lean ====
section
/-! SUPPORT. What one step and one more step of a run give. -/

namespace Sys2Proof.Machine

/-- Whatever an operation answers, it is a next state with one more response, CFG and the words to come untouched. -/
theorem AnswersFrom.next {s : State} {a : Answer} (h : AnswersFrom s a) :
    ∃ t r, a = .next t ∧ t.responses = s.responses ++ [r] ∧ t.cfg = s.cfg ∧ t.requests = s.requests := by
  cases h with
  | only r => exact ⟨_, r, rfl, rfl, rfl, rfl⟩
  | wrote ds h => exact ⟨_, _, rfl, rfl, rfl, rfl⟩
  | made v w ds h => exact ⟨_, _, rfl, rfl, rfl, rfl⟩

/-- A step with a word to take serves that word. -/
theorem step_cons {s : State} {w : OpWord} {rest : List OpWord} (h : s.requests = w :: rest) :
    step s = serve w { s with requests := rest } := by
  simp [step, takeRequest, h]

/-- A step with no word to take faults. -/
theorem step_nil {s : State} (h : s.requests = []) : step s = .fault .endOfRun := by
  simp [step, takeRequest, h]

/-- A run of one more step goes through the first step's state. -/
theorem run_succ (M : Host.Core) (k : Nat) (s t : M.State) (h : M.step s = .next t) :
    M.run (k + 1) s = M.run k t := by
  rw [Host.Core.run, h]

end Sys2Proof.Machine
end

