-- ==== Sys2Proof/Tests/Slice0.lean ====
section
/-! SUPPORT. The model's own tests. Expected results are the vectors of 95_test_vectors.md, hand-derived there from the
rules, or words written out here from the encodings of 30_encoding.md R74-R77. The witnesses at the end show, for each
statement with hypotheses, a state and operands that meet them, at a boundary of each clause. -/

namespace Sys2Proof.Tests

open Sys2Proof.Machine

/-! ### Helpers -/

/-- The illustrative assignment `EX` of 95_test_vectors.md, all else at its default. -/
def ex : Cfg where
  maxBits := 65535
  vicCmdBits := 32
  vicSpeedBits := 64
  rangePolicy := .strict
  manPtDisc := 0
  manFcLens := 0
  manFcAux := 1
  manFcRecall := 2
  manFcStore := 3
  manLcIrisOpen := 5
  manLcFocusFar := 3
  manLcZoomIn := 1
  manLcIrisClose := 6
  manLcFocusNear := 4
  manLcZoomOut := 2
  irisPositive := .opening
  focusPositive := .far

/-- `EX` with `RANGE_POLICY = LEGACY`. -/
def exLegacy : Cfg := { ex with rangePolicy := .legacy }

/-- `EX` with `IRIS_POSITIVE = CLOSE` and `FOCUS_POSITIVE = NEAR`. -/
def exReversed : Cfg := { ex with irisPositive := .closing, focusPositive := .near }

/-- `EX` with `VIC_CMD_BITS` and `VIC_SPEED_BITS` given. -/
def exWide (cmd speed : Nat) : Cfg := { ex with vicCmdBits := cmd, vicSpeedBits := speed }

/-- A state holding a frame. -/
def held (c : Cfg) (v : Variant) (w : Nat) (ones : List Nat) : State :=
  (State.resetWith c).hold v w ⟨ones⟩

/-- The bytes held and the responses given after one step at a word; none where the step does not go on. -/
def after (s : State) (w : Nat) : Option (List Byte × List Response) :=
  match step (s.withFetchWord 64 w) with
  | .next t => some (octets t, t.responses)
  | _ => none

/-- The state after one step at a word, for a step that goes on. -/
def stepped (s : State) (w : Nat) : State :=
  match step (s.withFetchWord 64 w) with
  | .next t => t
  | _ => s

/-- The word is refused by the decoder and answered `IllegalOp(op)`, the state held unchanged. -/
def illegal (w : Nat) (op : BitVec 8) : Bool :=
  decodeTableWord 64 w = none ∧
    stepped (held ex .raw 8 [3]) w = (held ex .raw 8 [3]).answer (.error (.illegalOp op))

/-- `OK` with no data. -/
def ok : List Response := [.ok .empty]

def noFrame : State := State.resetWith ex
def raw (w : Nat) (ones : List Nat) : State := held ex .raw w ones
def manPt (ones : List Nat) : State := held ex .manPt 24 ones
def manLens (ones : List Nat) : State := held ex .manLens 24 ones
def manAux (ones : List Nat) : State := held ex .manAux 24 ones
def status (ones : List Nat) : State := held ex .vicStatus 16 ones
def cmd (ones : List Nat) : State := held ex .vicCmd 32 ones
def speed (ones : List Nat) : State := held ex .vicSpeed 64 ones

/-! ### WellFormed (R81): each check refuses an ill-formed term -/

theorem test_wf_unsigned_bounds :
    (Instr.bbNew 65535).wf = true ∧ (Instr.bbNew 65536).wf = false ∧ (Instr.bbGet 65536).wf = false ∧
    (Instr.bbSet 65536 true).wf = false ∧ (Instr.bbWrf 65536 0 0).wf = false ∧ (Instr.bbWrf 0 256 0).wf = false ∧
    (Instr.bbWrf 0 0 4294967296).wf = false ∧ (Instr.bbWrf 65535 255 4294967295).wf = true := by decide

theorem test_wf_signed_manchester :
    (Instr.manRecv 2147483648).wf = false ∧ (Instr.manPan (-2147483649)).wf = false ∧
    (Instr.manTilt 2147483648).wf = false ∧ (Instr.manZoom (-2147483649)).wf = false ∧
    (Instr.manFocus 2147483648).wf = false ∧ (Instr.manIris (-2147483649)).wf = false ∧
    (Instr.manAux 2147483648).wf = false ∧ (Instr.manPan (-2147483648)).wf = true := by decide

theorem test_wf_signed_vicon :
    (Instr.vicRecv 2147483648).wf = false ∧ (Instr.vicPan (-2147483649)).wf = false ∧
    (Instr.vicTilt 2147483648).wf = false ∧ (Instr.vicZoom (-2147483649)).wf = false ∧
    (Instr.vicIris 2147483648).wf = false ∧ (Instr.vicFocus (-2147483649)).wf = false ∧
    (Instr.vicAux 2147483648 false).wf = false ∧ (Instr.vicAux 2147483647 true).wf = true := by decide

/-! ### Decoding: every operation's word, written out from its encoding line -/

theorem test_decode_bitbuffer :
    decodeTableWord 64 0x00000000000C0001 = some (.bbNew 12) ∧
    decodeTableWord 64 0x0000000000130002 = some (.bbGet 19) ∧
    decodeTableWord 64 0x00000000FFFE0103 = some (.bbSet 65534 true) ∧
    decodeTableWord 64 0x0000ABCD00080C04 = some (.bbWrf 8 12 0xABCD) ∧
    decodeTableWord 64 0x0000000000000005 = some .bbOctets ∧
    decodeTableWord 64 0x0000000000000006 = some .frameDiscard ∧
    decodeTableWord 64 0x0000000000000007 = some .frameInfo := by decide

theorem test_decode_manchester :
    decodeTableWord 64 0x0000000000000010 = some .manNewPt ∧
    decodeTableWord 64 0x0000000000000011 = some .manNewLens ∧
    decodeTableWord 64 0x0000000000000012 = some .manNewAux ∧
    decodeTableWord 64 0x0000009600000013 = some (.manRecv 150) ∧
    decodeTableWord 64 0xFFFFFFFA00000014 = some (.manPan (-6)) ∧
    decodeTableWord 64 0x8000000000000015 = some (.manTilt (-2147483648)) ∧
    decodeTableWord 64 0x7FFFFFFF00000016 = some (.manZoom 2147483647) ∧
    decodeTableWord 64 0xFFFFFFFE00000017 = some (.manFocus (-2)) ∧
    decodeTableWord 64 0x0000000100000018 = some (.manIris 1) ∧
    decodeTableWord 64 0x0000000400000019 = some (.manAux 4) := by decide

theorem test_decode_vicon :
    decodeTableWord 64 0x0000000000000020 = some .vicNewStatus ∧
    decodeTableWord 64 0x0000000000000021 = some .vicNewCmd ∧
    decodeTableWord 64 0x0000000000000022 = some .vicNewSpeed ∧
    decodeTableWord 64 0x0000005A00000023 = some (.vicRecv 90) ∧
    decodeTableWord 64 0xFFFFF80100000024 = some (.vicPan (-2047)) ∧
    decodeTableWord 64 0x0000138800000025 = some (.vicTilt 5000) ∧
    decodeTableWord 64 0xFFFFFFFF00000026 = some (.vicZoom (-1)) ∧
    decodeTableWord 64 0x0000000100000027 = some (.vicIris 1) ∧
    decodeTableWord 64 0x8000000000000028 = some (.vicFocus (-2147483648)) ∧
    decodeTableWord 64 0x0000000000000129 = some (.vicAutoIris true) ∧
    decodeTableWord 64 0x000000000000002A = some (.vicAutoPan false) ∧
    decodeTableWord 64 0x000000000000012B = some (.vicLensSpeed true) ∧
    decodeTableWord 64 0x000000060000012C = some (.vicAux 6 true) := by decide

/-- The word's fields (R74): `BB.WRF 4, 8, 0x1A5` is `(0x1A5 << 32) | (4 << 16) | (8 << 8) | 0x04`. -/
theorem test_encode_fields :
    encode (.bbWrf 4 8 0x1A5) = 0x000001A500040804 ∧ encode (.vicPan (-744)) = 0xFFFFFD1800000024 ∧
    encode (.vicAux 3 true) = 0x000000030000012C := by decide

/-- L2.1, reserved opcodes. -/
theorem test_reserved_opcodes :
    illegal 0x0000000000000000 0x00 ∧ illegal 0x0000000000000008 0x08 ∧ illegal 0x000000000000001A 0x1A ∧
    illegal 0x000000000000001B 0x1B ∧ illegal 0x00000000000000FF 0xFF := by decide

/-- L2.1, unused fields that are not zero. -/
theorem test_unused_fields :
    illegal 0x0000000100000005 0x05 ∧ illegal 0x0000000000000105 0x05 ∧ illegal 0x0000000000010005 0x05 ∧
    illegal 0x0000000000000203 0x03 ∧ illegal 0x0000000100000002 0x02 ∧ illegal 0x0000000000010013 0x13 ∧
    illegal 0x0000000000000113 0x13 ∧ illegal 0x0000000000000229 0x29 ∧ illegal 0x0000000100000029 0x29 ∧
    illegal 0x000000000000022A 0x2A := by decide

/-- L2.1: `IllegalOp` comes before `WrongVariant`. -/
theorem test_illegal_before_variant :
    after noFrame 0x0000000000000229 = some ([], [.error (.illegalOp 0x29)]) := by decide

/-! ### One step at a vector of 95_test_vectors.md -/

theorem test_bbNew :
    after noFrame 0x00000000000C0001 = some ([0, 0], ok) ∧
    after (held { ex with maxBits := 100 } .raw 8 [3]) 0x0000000000650001 =
      some ([0x08], [.error (.outOfRange 0 101)]) := by decide

theorem test_bbGet :
    after (raw 20 [0, 1, 4, 5, 7, 19]) 0x0000000000130002 = some ([0xB3, 0x00, 0x08], [.ok (.bit true)]) ∧
    after (raw 20 [19]) 0x0000000000140002 = some ([0x00, 0x00, 0x08], [.error (.outOfRange 20 1)]) := by decide

theorem test_bbSet :
    after (raw 8 []) 0x0000000000030103 = some ([0x08], ok) ∧
    after (raw 8 [3]) 0x0000000000080103 = some ([0x08], [.error (.outOfRange 8 1)]) ∧
    after (raw 8 [3]) 0x0000000000030003 = some ([0x00], ok) ∧
    after (manPt [7]) 0x0000000000000103 = some ([0x80, 0x00, 0x00], [.error (.wrongVariant 2)]) := by decide

theorem test_bbWrf :
    after (raw 16 []) 0x000001A500040804 = some ([0x50, 0x0A], ok) ∧
    after (raw 16 [4, 6, 9, 11]) 0x0000001F000C0504 = some ([0x50, 0x0A], [.error (.outOfRange 12 5)]) ∧
    after (raw 16 []) 0x0000000000100004 = some ([0x00, 0x00], ok) ∧
    after (raw 16 []) 0x0000000000110004 = some ([0x00, 0x00], [.error (.outOfRange 17 0)]) := by decide

/-- P3, after its third step: a last byte of four bits. -/
theorem test_bbOctets :
    after (raw 20 [0, 1, 4, 5, 7, 8, 10, 11, 14, 15, 16, 17, 19]) 0x0000000000000005 =
      some ([0xB3, 0xCD, 0x0B], [.ok (.octets [0xB3, 0xCD, 0x0B])]) ∧
    after noFrame 0x0000000000000005 = some ([], [.ok (.octets [])]) := by decide

theorem test_frameDiscard :
    (stepped (raw 8 [3]) 0x0000000000000006) = noFrame.answer (.ok .empty) := by decide

theorem test_frameInfo :
    after (status [7]) 0x0000000000000007 = some ([0x80, 0x00], [.ok (.info 5 16)]) ∧
    (stepped (raw 65535 []) 0x0000000000000007).responses = [.ok (.info 1 65535)] := by decide

/-- `80 00 0(2p)` at `p = 0` and at `p = 1`. -/
theorem test_manNewPt :
    after (raw 8 [3]) 0x0000000000000010 = some ([0x80, 0x00, 0x00], ok) ∧
    after (held { ex with manPtDisc := 1 } .raw 8 [3]) 0x0000000000000010 = some ([0x80, 0x00, 0x02], ok) := by decide

theorem test_manNewLens : after noFrame 0x0000000000000011 = some ([0x80, 0x00, 0x02], ok) := by decide

theorem test_manNewAux : after noFrame 0x0000000000000012 = some ([0x80, 0x10, 0x02], ok) := by decide

/-- L1.3, the row `r = 200`, and P1's second step. -/
theorem test_manRecv :
    after (manPt [7]) 0x000000C800000013 = some ([0x83, 0x00, 0x1C], ok) ∧
    after (manPt [7]) 0x0000009600000013 = some ([0x82, 0x00, 0x54], ok) := by decide

/-- L1.6, third step; `STRICT` at 8; `LEGACY` at 9. -/
theorem test_manPan :
    after (manPt [7]) 0xFFFFFFFA00000014 = some ([0x80, 0x2C, 0x00], ok) ∧
    after (manPt [7]) 0x0000000800000014 = some ([0x80, 0x00, 0x00], [.error (.rangeError 8)]) ∧
    after (held exLegacy .manPt 24 [7]) 0x0000000900000014 = some ([0x80, 0x32, 0x00], ok) ∧
    after (held exLegacy .manPt 24 [7]) 0x8000000000000014 = some ([0x80, 0x20, 0x00], ok) := by decide

/-- L1.6, fourth step; a zero keeps the direction and clears the speed. -/
theorem test_manTilt :
    after (manPt [7, 10, 11, 13]) 0x0000000600000015 = some ([0x80, 0x1C, 0x00], ok) ∧
    after (manPt [7, 9, 10, 12]) 0x0000000000000015 = some ([0x80, 0x10, 0x00], ok) := by decide

theorem test_manZoom :
    after (manLens [7, 17]) 0x0000000300000016 = some ([0x80, 0x02, 0x02], ok) ∧
    after (manLens [7, 9, 17]) 0x0000000000000016 = some ([0x80, 0x02, 0x02], ok) ∧
    after (manPt [7]) 0x0000000100000016 = some ([0x80, 0x00, 0x00], [.error (.wrongVariant 2)]) := by decide

theorem test_manFocus :
    after (manLens [7, 9, 17]) 0xFFFFFFFE00000017 = some ([0x80, 0x08, 0x02], ok) := by decide

theorem test_manIris :
    after (manLens [7, 11, 17]) 0x0000000100000018 = some ([0x80, 0x0A, 0x02], ok) ∧
    after (manLens [7, 9, 11, 17]) 0x8000000000000018 = some ([0x80, 0x0C, 0x02], ok) := by decide

/-- L1.5, channels 4, 6, 0 and 7. -/
theorem test_manAux :
    after (manAux [7, 12, 17]) 0x0000000400000019 = some ([0x80, 0x16, 0x02], ok) ∧
    after (manAux [7, 12, 17]) 0x0000000600000019 = some ([0x80, 0x1E, 0x02], ok) ∧
    after (manAux [7, 12, 17]) 0x0000000000000019 = some ([0x80, 0x10, 0x02], [.error (.rangeError 0)]) ∧
    after (manAux [7, 12, 17]) 0x0000000700000019 = some ([0x80, 0x10, 0x02], [.error (.rangeError 7)]) := by decide

theorem test_vicNewStatus : after noFrame 0x0000000000000020 = some ([0x80, 0x00], ok) := by decide

theorem test_vicNewCmd : after noFrame 0x0000000000000021 = some ([0x80, 0x10, 0x00, 0x00], ok) := by decide

theorem test_vicNewSpeed :
    after noFrame 0x0000000000000022 = some ([0x80, 0x50, 0, 0, 0, 0, 0, 0], ok) := by decide

theorem test_vicRecv :
    after (status [7]) 0x0000005A00000023 = some ([0x85, 0x0A], ok) ∧
    after (cmd [7, 12]) 0x000000A700000023 = some ([0x8A, 0x17, 0, 0], ok) ∧
    after (status [7]) 0x0000010000000023 = some ([0x80, 0x00], [.error (.rangeError 256)]) := by decide

theorem test_vicPan :
    after (cmd [7, 12, 21]) 0xFFFFFFFB00000024 = some ([0x80, 0x10, 0x40, 0x00], ok) ∧
    after (speed [7, 12, 14]) 0xFFFFF80100000024 = some ([0x80, 0x50, 0x40, 0, 0, 0, 0x0F, 0x7F], ok) ∧
    after (speed [7, 12, 14]) 0x0000080000000024 = some ([0x80, 0x50, 0, 0, 0, 0, 0, 0], [.error (.rangeError 2048)]) ∧
    after (held (exWide 32 56) .vicSpeed 56 [7, 12, 14]) 0x0000000100000024 =
      some ([0x80, 0x50, 0, 0, 0, 0, 0], [.error (.outOfRange 56 7)]) := by decide

theorem test_vicTilt :
    after (cmd [7, 12]) 0xFFFFFFFB00000025 = some ([0x80, 0x10, 0x08, 0x00], ok) ∧
    after (speed [7, 12, 14]) 0x0000000000000025 =
      some ([0x80, 0x50, 0, 0, 0, 0, 0, 0], [.error (.outOfRange 64 4)]) ∧
    after (held (exWide 32 80) .vicSpeed 80 [7, 8, 12, 14]) 0xFFFFFED400000025 =
      some ([0x80, 0x51, 0x08, 0, 0, 0, 0, 0, 0x02, 0x2C], ok) := by decide

theorem test_vicZoom :
    after (cmd [7, 12, 29]) 0xFFFFFFFF00000026 = some ([0x80, 0x10, 0x00, 0x40], ok) := by decide

theorem test_vicIris :
    after (cmd [7, 12]) 0x0000000100000027 = some ([0x80, 0x10, 0x00, 0x04], ok) ∧
    after (held exReversed .vicCmd 32 [7, 12]) 0x0000000100000027 = some ([0x80, 0x10, 0x00, 0x02], ok) := by decide

theorem test_vicFocus :
    after (cmd [7, 12, 25]) 0xFFFFFFFF00000028 = some ([0x80, 0x10, 0x00, 0x0A], ok) ∧
    after (held exReversed .vicCmd 32 [7, 12, 25]) 0x0000000100000028 = some ([0x80, 0x10, 0x00, 0x0A], ok) := by decide

theorem test_vicAutoIris : after (cmd [7, 12]) 0x0000000000000129 = some ([0x80, 0x10, 0x02, 0x00], ok) := by decide

theorem test_vicAutoPan : after (cmd [7, 12, 17]) 0x000000000000012A = some ([0x80, 0x10, 0x06, 0x00], ok) := by decide

theorem test_vicLensSpeed :
    after (cmd [7, 12, 17, 18]) 0x000000000000012B = some ([0x80, 0x10, 0x06, 0x01], ok) := by decide

theorem test_vicAux :
    after (speed [7, 12, 14]) 0x000000060000012C = some ([0x80, 0x50, 0, 0, 0x40, 0, 0, 0], ok) ∧
    after (cmd [7, 12]) 0x000000020000012C = some ([0x80, 0x10, 0, 0], [.error (.outOfRange 34 1)]) ∧
    after (cmd [7, 12]) 0x000000070000012C = some ([0x80, 0x10, 0, 0], [.error (.rangeError 7)]) ∧
    after (held (exWide 40 64) .vicCmd 40 [7, 12]) 0x000000020000012C =
      some ([0x80, 0x10, 0, 0, 0x04], ok) := by decide

/-! ### The port and the assembler -/

theorem test_end_of_run : step noFrame = .fault .endOfRun := rfl

/-- R78: every row of the table decodes at its own match word, to its own mnemonic. -/
theorem test_table_rows :
    opcodeTable.all (fun r => (decodeTableWord 64 r.matchWord.toNat).map Instr.mnemonic = some r.mnemonic) = true := by
  decide

theorem test_assembler :
    assembleLine "BB.WRF 4, 8, 0x1A5" = some (.bbWrf 4 8 0x1A5) ∧ assembleLine "MAN.PAN -6" = some (.manPan (-6)) ∧
    assembleLine "BB.OCTETS" = some .bbOctets ∧ assembleLine "BB.NEW 65536" = none ∧
    assembleLine "VIC.AUTOPAN 2" = none := by decide

/-- R82. -/
theorem test_assembler_pseudo :
    assembleLine "BB.CLR 3" = some (.bbSet 3 false) ∧ assembleLine "BB.ONE 3" = some (.bbSet 3 true) ∧
    assembleLine "VIC.AUXON 2" = some (.vicAux 2 true) ∧ assembleLine "VIC.AUXOFF 2" = some (.vicAux 2 false) := by
  decide

/-! ### Witnesses: hypotheses met -/

/-- The invariant holds in each kind of state. -/
theorem test_witness_Inv :
    noFrame.Inv ∧ (raw 20 [0, 19]).Inv ∧ (manPt [7, 10, 11, 13]).Inv ∧ (manLens [7, 9, 17]).Inv ∧
    (manAux [7, 9, 10, 12, 17, 22]).Inv ∧ (status [0, 7, 11]).Inv ∧ (cmd [7, 12, 22, 30]).Inv ∧
    (speed [7, 12, 14, 21, 62]).Inv := by
  refine ⟨?_, ?_, ?_, ?_, ?_, ?_, ?_, ?_⟩ <;> decide

/-- ... and fails where one of its parts does: an illegal CFG, a list out of order, a wrong width, a width above
MAX_BITS, a bit at WIDTH, no sync flag, both flags of a pair, an unused bit, a wrong DISC, a reserved auxiliary mask. -/
theorem test_Inv_refuses :
    ¬ (held (exWide 30 64) .none 0 []).Inv ∧ ¬ (raw 20 [19, 0]).Inv ∧ ¬ (held ex .manPt 23 [7]).Inv ∧
    ¬ (raw 65536 []).Inv ∧ ¬ (raw 20 [20]).Inv ∧ ¬ (manPt []).Inv ∧ ¬ (cmd [7, 12, 21, 22]).Inv ∧
    ¬ (cmd [7, 12, 23]).Inv ∧ ¬ (manPt [7, 17]).Inv ∧ ¬ (manAux [7, 9, 12, 17]).Inv := by
  refine ⟨?_, ?_, ?_, ?_, ?_, ?_, ?_, ?_, ?_, ?_⟩ <;> decide

theorem test_witness_DecodeOfEncode :
    (Instr.bbWrf 65535 255 4294967295).wf = true ∧ (Instr.vicAux (-2147483648) true).wf = true := by decide

theorem test_witness_EncodeOfDecode :
    decode 0xFFFFFFFFFFFFFF04 = .ok (.bbWrf 65535 255 4294967295) := by decide

theorem test_witness_LegalExactlyAtTableRows :
    (∃ r ∈ opcodeTable, (0xFFFFFFFF0000012C : OpWord) &&& r.mask = r.matchWord) ∧
    (∀ r ∈ opcodeTable, (0x000000000000001A : OpWord) &&& r.mask ≠ r.matchWord) := by decide

theorem test_witness_BytesCarryTheWord :
    ([] : List Byte).length < 8 ∧ ([1, 0, 0, 0, 0, 0, 0] : List Byte).length < 8 ∧
    63 / 8 < (bytesOfWord 0x8000000000000014).length := by decide

/-- A well-formed operation with its operands in R81's order, and a pseudo-instruction. -/
theorem test_witness_Assembler :
    (Instr.bbSet 65535 true).wf = true ∧ operandsOf (.bbWrf 4 8 0x1A5) = [4, 8, 0x1A5] ∧
    assemble "BB.WRF" [4, 8, 0x1A5] = some (.bbWrf 4 8 0x1A5) ∧ assemble "BB.ONE" [0] = some (.bbSet 0 true) := by decide

/-- R81's ranges at their ends: what fits, and what does not. -/
theorem test_assembler_ranges :
    ("BB.SET", [OperandRange.idx, .bit]) ∈ operandRanges ∧ OperandsFit [65535, 1] [.idx, .bit] ∧
    ¬ OperandsFit [65536, 1] [.idx, .bit] ∧ ¬ OperandsFit [-1, 1] [.idx, .bit] ∧ ¬ OperandsFit [0, 2] [.idx, .bit] ∧
    ¬ OperandsFit [0] [.idx, .bit] ∧ OperandsFit [255] [.count] ∧ ¬ OperandsFit [256] [.count] ∧
    OperandsFit [4294967295] [.value] ∧ ¬ OperandsFit [4294967296] [.value] ∧ OperandsFit [-2147483648] [.signed] ∧
    ¬ OperandsFit [-2147483649] [.signed] ∧ ¬ OperandsFit [2147483648] [.signed] := by
  refine ⟨?_, ?_, ?_, ?_, ?_, ?_, ?_, ?_, ?_, ?_, ?_, ?_, ?_⟩ <;> decide

/-- The three ways to write a number, and the lines they stand in. -/
theorem test_witness_Assembler_line :
    List.Forall₂ WrittenAs ["4".toList, "8".toList, "0x1a5".toList] [4, 8, 0x1A5] ∧
    asmLine "BB.WRF" ["4".toList, "8".toList, "0x1a5".toList] = "BB.WRF 4, 8, 0x1a5" ∧
    List.Forall₂ WrittenAs ["-6".toList] [-6] ∧ asmLine "MAN.PAN" ["-6".toList] = "MAN.PAN -6" ∧
    List.Forall₂ WrittenAs [] [] ∧ asmLine "BB.OCTETS" [] = "BB.OCTETS" := by
  refine ⟨.cons (.inl ⟨by decide, by decide⟩) (.cons (.inl ⟨by decide, by decide⟩)
    (.cons (.inr (.inr ⟨by decide, by decide⟩)) .nil)), by decide,
    .cons (.inr (.inl ⟨by decide, by decide⟩)) .nil, by decide, .nil, by decide⟩

/-- R181's codes: each kind of response from a step that gives it. -/
theorem test_response_codes :
    (stepped (manPt [7]) 0x0000000100000014).responses.map Response.code = [0] ∧
    (stepped (manPt [7]) 0x0000000800000014).responses.map Response.code = [1] ∧
    (stepped (raw 8 [3]) 0x0000000000080002).responses.map Response.code = [2] ∧
    (stepped (manPt [7]) 0x0000000000000103).responses.map Response.code = [3] ∧
    (stepped noFrame 0x000000000000001A).responses.map Response.code = [4] := by decide

/-- The first and the last word of a run of two. -/
theorem test_witness_Run :
    0 < (noFrame.load [0x10, 0x1A]).requests.length ∧ 1 < (noFrame.load [0x10, 0x1A]).requests.length := by decide

/-- A legal CFG with every width and policy off its default. -/
theorem test_witness_Reset :
    ex.Legal ∧ Cfg.Legal { exReversed with maxBits := 31, vicCmdBits := 31, vicSpeedBits := 31, rangePolicy := .legacy } := by
  decide

/-- A legal word and an illegal one, each first of the words the host holds. -/
theorem test_witness_Step :
    ((noFrame.withFetchWord 64 0x10).requests = [0x10] ∧ decode 0x10 = .ok .manNewPt) ∧
    ((noFrame.withFetchWord 64 0x1A).requests = [0x1A] ∧ decode 0x1A = .error (.reservedOpcode 0x1A)) ∧
    noFrame.requests = [] ∧ (noFrame.withFetchWord 64 0x10).requests ≠ [] := by decide

theorem test_witness_ErrorsChangeNoState :
    serve 0x0000000000140002 (raw 20 [19]) = .next ((raw 20 [19]).answer (.error (.outOfRange 20 1))) := rfl

/-- Sized states in which each check fails first, and one in which none does. -/
theorem test_witness_FirstFailingCheck :
    (speed [7, 12, 14]).Sized ∧ decode 0x0000000100000005 = .error (.unusedFieldNotZero 0x05) ∧
    errorOf (.manPan 1) (speed [7, 12, 14]) = some (.wrongVariant 7) ∧
    errorOf (.vicTilt 5000) (speed [7, 12, 14]) = some (.rangeError 5000) ∧
    errorOf (.vicTilt 2047) (speed [7, 12, 14]) = some (.outOfRange 64 4) ∧
    errorOf (.vicPan 2047) (speed [7, 12, 14]) = none := by decide

theorem test_witness_BbNew : 65535 ≤ noFrame.cfg.maxBits ∧ noFrame.cfg.maxBits < 65536 := by decide

theorem test_witness_BbGet : 19 < (raw 20 [19]).width ∧ (raw 20 [19]).width ≤ 20 := by decide

theorem test_witness_BbSet :
    (raw 20 [19]).variant = .raw ∧ 19 < (raw 20 [19]).width ∧ (raw 20 [19]).width ≤ 20 ∧
    (manPt [7]).variant ∉ [Variant.raw] := by decide

theorem test_witness_BbWrf :
    (raw 20 [19]).variant = .raw ∧ 12 + 8 ≤ (raw 20 [19]).width ∧ (raw 20 [19]).width < 13 + 8 ∧
    20 + 0 ≤ (raw 20 [19]).width ∧ noFrame.variant ∉ [Variant.raw] := by decide

theorem test_witness_BbOctets : 2 < (octets (raw 20 [19])).length ∧ (octets (raw 20 [19])).length = 3 := by decide

theorem test_witness_SetThenGet :
    (raw 20 [19]).variant = .raw ∧ 0 < (raw 20 [19]).width ∧ 19 < (raw 20 [19]).width := by decide

theorem test_witness_WriteFieldRoundTrip :
    (raw 16 []).variant = .raw ∧ 4 + 8 ≤ (raw 16 []).width ∧ 16 + 0 ≤ (raw 16 []).width := by decide

theorem test_witness_ManRecv :
    (manPt [7]).variant.isManchester = true ∧ (manPt [7]).WidthOk ∧ (manLens [7, 17]).variant.isManchester = true ∧
    (manLens [7, 17]).WidthOk ∧ (manAux [7, 12, 17]).variant.isManchester = true ∧ (manAux [7, 12, 17]).WidthOk ∧
    (1 ≤ (1 : Int) ∧ (1 : Int) ≤ 255) ∧ (1 ≤ (255 : Int) ∧ (255 : Int) ≤ 255) ∧ (0 : Int) < 1 ∧ 255 < (256 : Int) ∧
    (raw 8 []).variant ∉ [Variant.manPt, .manLens, .manAux] := by decide

/-- `MAN.PAN` and `MAN.TILT`: `STRICT` at 7, 0 and -7, `LEGACY` at 9, `STRICT` at 8. -/
theorem test_witness_ManMove :
    (manPt [7]).variant = .manPt ∧ (manPt [7]).WidthOk ∧
    ¬ ((manPt [7]).cfg.rangePolicy = .strict ∧ 7 < (7 : Int).natAbs) ∧
    ¬ ((manPt [7]).cfg.rangePolicy = .strict ∧ 7 < (0 : Int).natAbs) ∧
    ¬ ((manPt [7]).cfg.rangePolicy = .strict ∧ 7 < (-7 : Int).natAbs) ∧
    ¬ ((held exLegacy .manPt 24 [7]).cfg.rangePolicy = .strict ∧ 7 < (9 : Int).natAbs) ∧
    ((manPt [7]).cfg.rangePolicy = .strict ∧ 7 < (-8 : Int).natAbs) ∧
    (manLens [7, 17]).variant ∉ [Variant.manPt] := by decide

theorem test_witness_LaterMove :
    (manPt [7]).variant = .manPt ∧ (manPt [7]).WidthOk ∧
    ((manPt [7]).cfg.rangePolicy = .strict → (-7 : Int).natAbs ≤ 7 ∧ (0 : Int).natAbs ≤ 7) := by decide

/-- The lens setters, and the codes they select. -/
theorem test_witness_ManLens :
    (manLens [7, 17]).variant = .manLens ∧ (manLens [7, 17]).WidthOk ∧
    (manAux [7, 12, 17]).variant ∉ [Variant.manLens] ∧
    lensChoice ex (.manZoom (-1)) = some 2 ∧ lensChoice ex (.manIris 1) = some 5 ∧
    lensChoice exReversed (.manFocus 1) = some 4 := by decide

theorem test_witness_ManAux :
    (manAux [7, 12, 17]).variant = .manAux ∧ (manAux [7, 12, 17]).WidthOk ∧
    (1 ≤ (1 : Int) ∧ (1 : Int) ≤ 6) ∧ (1 ≤ (6 : Int) ∧ (6 : Int) ≤ 6) ∧ ((0 : Int) < 1 ∨ 6 < (0 : Int)) ∧
    ((7 : Int) < 1 ∨ 6 < (7 : Int)) ∧ (manPt [7]).variant ∉ [Variant.manAux] := by decide

theorem test_witness_ReceiverRoundTrip :
    (manPt [7]).variant.isManchester = true ∧ (manPt [7]).WidthOk ∧ 1 ≤ 255 ∧ 255 ≤ 255 ∧
    manReceiver (stepped (manPt [7]) 0x0000004000000013).frame = 64 := by decide

theorem test_witness_ManchesterByteMap :
    (manAux [0, 7, 9, 10, 12, 17, 22]).Inv ∧ (manAux [0, 7, 9, 10, 12, 17, 22]).variant.isManchester = true ∧
    manchesterBytes (manAux [0, 7, 9, 10, 12, 17, 22]).frame = [0x81, 0x16, 0x42] := by decide

theorem test_witness_VicNew : noFrame.cfg.Legal ∧ (held (exWide 31 31) .none 0 []).cfg.Legal := by decide

theorem test_witness_VicRecv :
    (status [7]).variant.isVicon = true ∧ (status [7]).Sized ∧ (cmd [7, 12]).Sized ∧ (speed [7, 12, 14]).Sized ∧
    (speed [7, 12, 14]).variant.isVicon = true ∧ (1 ≤ (255 : Int) ∧ (255 : Int) ≤ 255) ∧
    ((0 : Int) < 1 ∨ 255 < (0 : Int)) ∧ ((256 : Int) < 1 ∨ 255 < (256 : Int)) ∧
    (manPt [7]).variant ∉ [Variant.vicStatus, .vicCmd, .vicSpeed] := by decide

/-- `VIC.PAN`: a Command frame; a SpeedCommand frame at each width clause, 51, 52, 62 and 63; `STRICT` at 2047 and
2048. -/
theorem test_witness_VicPan :
    ((cmd [7, 12]).Sized ∧ (cmd [7, 12]).variant = .vicCmd) ∧
    ((speed [7, 12, 14]).Sized ∧ (speed [7, 12, 14]).variant = .vicSpeed) ∧
    (held (exWide 32 51) .vicSpeed 51 [7, 12, 14]).Sized ∧ (held (exWide 32 52) .vicSpeed 52 [7, 12, 14]).Sized ∧
    (held (exWide 32 62) .vicSpeed 62 [7, 12, 14]).Sized ∧ (held (exWide 32 63) .vicSpeed 63 [7, 12, 14]).Sized ∧
    ¬ (ex.rangePolicy = .strict ∧ 2047 < (-2047 : Int).natAbs) ∧
    ¬ (exLegacy.rangePolicy = .strict ∧ 2047 < (2048 : Int).natAbs) ∧
    (ex.rangePolicy = .strict ∧ 2047 < (2048 : Int).natAbs) ∧
    (status [7]).variant ∉ [Variant.vicCmd, .vicSpeed] := by
  refine ⟨?_, ?_, ?_, ?_, ?_, ?_, ?_, ?_, ?_, ?_⟩ <;> decide

/-- `VIC.TILT`: the same with its own widths, 67, 68, 78 and 79. -/
theorem test_witness_VicTilt :
    (held (exWide 32 67) .vicSpeed 67 [7, 12, 14]).Sized ∧ (held (exWide 32 68) .vicSpeed 68 [7, 12, 14]).Sized ∧
    (held (exWide 32 78) .vicSpeed 78 [7, 12, 14]).Sized ∧ (held (exWide 32 79) .vicSpeed 79 [7, 12, 14]).Sized ∧
    ((cmd [7, 12]).Sized ∧ (cmd [7, 12]).variant = .vicCmd) ∧
    (status [7]).variant ∉ [Variant.vicCmd, .vicSpeed] := by decide

/-- The setters of every Vicon command frame: zoom, iris, focus, the booleans, and R164. -/
theorem test_witness_ViconCommand :
    ((cmd [7, 12]).variant.isViconCommand = true ∧ (cmd [7, 12]).Sized ∧ (cmd [7, 12]).variant = .vicCmd) ∧
    ((speed [7, 12, 14]).variant.isViconCommand = true ∧ (speed [7, 12, 14]).Sized) ∧
    ((held (exWide 31 31) .vicCmd 31 [7, 12]).variant.isViconCommand = true ∧
      (held (exWide 31 31) .vicCmd 31 [7, 12]).Sized) ∧
    noFrame.variant ∉ [Variant.vicCmd, .vicSpeed] := by decide

/-- `VIC.AUX`: channels 1 and 6 at the width on either side, and channels 0 and 7. -/
theorem test_witness_VicAux :
    (cmd [7, 12]).variant.isViconCommand = true ∧
    (held (exWide 33 64) .vicCmd 33 [7, 12]).width ≤ 32 + (1 : Int).toNat ∧
    32 + (1 : Int).toNat < (held (exWide 34 64) .vicCmd 34 [7, 12]).width ∧
    (held (exWide 38 64) .vicCmd 38 [7, 12]).width ≤ 32 + (6 : Int).toNat ∧
    32 + (6 : Int).toNat < (held (exWide 39 64) .vicCmd 39 [7, 12]).width ∧
    ((0 : Int) < 1 ∨ 6 < (0 : Int)) ∧ ((7 : Int) < 1 ∨ 6 < (7 : Int)) ∧
    (status [7]).variant ∉ [Variant.vicCmd, .vicSpeed] := by decide

theorem test_witness_ViconByteMap :
    (speed [0, 7, 9, 12, 14, 21, 30, 38, 48, 59, 62]).Inv ∧
    (speed [0, 7, 9, 12, 14, 21, 30, 38, 48, 59, 62]).variant.isVicon = true ∧
    (List.range 8).map (viconByte (speed [0, 7, 9, 12, 14, 21, 30, 38, 48, 59, 62]).frame) =
      [0x81, 0x52, 0x20, 0x40, 0x40, 0x00, 0x01, 0x48] := by decide

/-- A state that meets every invariant, with a word that changes its frame, and a step that goes on. -/
theorem test_witness_Invariants :
    ((speed [7, 12, 14, 22]).withFetchWord 64 0x000000C800000024).Inv ∧
    (∀ i, 64 ≤ i → ((speed [7, 12, 14, 22]).withFetchWord 64 0x000000C800000024).frame.bit i = false) ∧
    after (speed [7, 12, 14, 22]) 0x000000C800000024 = some ([0x80, 0x50, 0x20, 0, 0, 0, 0x01, 0x48], ok) := by
  refine ⟨by decide, fun i hi => ?_, by decide⟩
  show decide (i ∈ [7, 12, 14, 22]) = false
  simp
  omega

/-- Two states that differ in the responses given before meet the hypotheses of R193's statement. -/
theorem test_witness_ReadsObserveAllState :
    (raw 20 [19]).Inv ∧ ((raw 20 [19]).answer (.ok .empty)).Inv ∧
    SameAnswer .frameInfo (raw 20 [19]) ((raw 20 [19]).answer (.ok .empty)) ∧
    (∀ k, SameAnswer (.bbGet k) (raw 20 [19]) ((raw 20 [19]).answer (.ok .empty))) := by
  refine ⟨by decide, by decide, fun r => ?_, fun k r => ?_⟩
  · simp [exec, execFrameInfo, respond, State.answer_inj]
  · by_cases h : (raw 20 [19]).width ≤ k
    · simp [exec, execBbGet, raise, State.answer_inj, h]
    · simp [exec, execBbGet, respond, State.answer_inj, h]

end Sys2Proof.Tests
end

/-! PROOFS of 00_scope.md: what a step does, and the invariant. `Effect` says once what each of the thirty operations may
write; every part of `State.Inv` is then kept by those writes (`Writes`) and met by a new frame (`Variant.blank`). -/

namespace Sys2Proof.Machine

/-! ### Single bits and fields of FRAME after a write -/

theorem Frame.mem_ones {f : Frame} {k : Nat} : k ∈ f.ones ↔ f.bit k = true := by simp [Frame.bit]

/-- A field just written reads back its value, cut to the field (R42). -/
theorem Frame.field_write_same (f : Frame) (d : Descriptor) :
    (f.write d).field d.first d.count = d.value % 2 ^ d.count := by
  refine Frame.field_eq_mod fun j hj => ?_
  rw [Frame.bit_write, if_pos (by omega), Nat.add_sub_cancel_left]

theorem Frame.field_eq_zero {f : Frame} {first count : Nat}
    (h : ∀ j, j < count → f.bit (first + j) = false) : f.field first count = 0 := by
  simpa using Frame.field_eq_mod (v := 0) (by simpa using h)

/-! ### The direction-flag pairs (R27) -/

/-- `(neg, pos)` is one of the five direction pairs, in either order. -/
abbrev IsDirectionPair (neg pos : Nat) : Prop :=
  (neg, pos) ∈ directionPairs ∨ (pos, neg) ∈ directionPairs

/-- The flags of a pair are two of the bits R69 gives the direction flags. -/
theorem directionPairs_flags : ∀ p ∈ directionPairs, p.1 ≠ p.2 ∧
    (∀ k ∈ [p.1, p.2], (19 ≤ k ∧ k ≤ 22) ∨ (25 ≤ k ∧ k ≤ 30)) := by decide

theorem directionPairs_eq_or_disjoint : ∀ p ∈ directionPairs, ∀ q ∈ directionPairs,
    p = q ∨ p.1 ≠ q.1 ∧ p.1 ≠ q.2 ∧ p.2 ≠ q.1 ∧ p.2 ≠ q.2 := by decide

theorem IsDirectionPair.flags {neg pos : Nat} (h : IsDirectionPair neg pos) :
    neg ≠ pos ∧ ((19 ≤ neg ∧ neg ≤ 22) ∨ (25 ≤ neg ∧ neg ≤ 30)) ∧
      ((19 ≤ pos ∧ pos ≤ 22) ∨ (25 ≤ pos ∧ pos ≤ 30)) := by
  rcases h with h | h <;> have := directionPairs_flags _ h <;> simp at this <;> omega

/-- No direction pair has both flags set (R27). -/
abbrev Frame.PairsExclusive (f : Frame) : Prop :=
  ∀ p ∈ directionPairs, ¬ (f.bit p.1 = true ∧ f.bit p.2 = true)

theorem Frame.PairsExclusive.of_bit_eq {f g : Frame} (hf : f.PairsExclusive)
    (h : ∀ k, (19 ≤ k ∧ k ≤ 22) ∨ (25 ≤ k ∧ k ≤ 30) → g.bit k = f.bit k) : g.PairsExclusive := by
  intro p hp
  have hk := (directionPairs_flags p hp).2
  rw [h p.1 (hk _ (by simp)), h p.2 (hk _ (by simp))]
  exact hf p hp

/-- A directional setter keeps the pairs exclusive: its own flags go to the sign of the input, no other pair shares
them (R154, R164). -/
theorem Frame.PairsExclusive.writeAll_pair {f : Frame} (hf : f.PairsExclusive) {neg pos : Nat}
    (h : IsDirectionPair neg pos) (v : Int) : (f.writeAll (pair neg pos v)).PairsExclusive := by
  intro p hp
  obtain ⟨hne, -, -⟩ := h.flags
  rw [Frame.bit_writeAll_pair hne, Frame.bit_writeAll_pair hne]
  have hcase : (p = (neg, pos) ∨ p = (pos, neg)) ∨ p.1 ≠ neg ∧ p.1 ≠ pos ∧ p.2 ≠ neg ∧ p.2 ≠ pos := by
    rcases h with h | h <;> have := directionPairs_eq_or_disjoint p hp _ h <;> tauto
  rcases hcase with (rfl | rfl) | ⟨h1, h2, h3, h4⟩
  · simp only [pairBits, if_neg hne.symm, if_true, decide_eq_true_eq]; omega
  · simp only [pairBits, if_neg hne.symm, if_true, decide_eq_true_eq]; omega
  · simp only [pairBits, if_neg h1, if_neg h2, if_neg h3, if_neg h4]
    exact hf p hp

/-! ### What an operation may write -/

/-- The writes an operation commits to a frame of variant `v` (R79, R102, R103, R123-R131, R153-R163). -/
inductive Writes (c : Cfg) : Variant → List Descriptor → Prop where
  /-- `BB.SET` and `BB.WRF` write anywhere in a raw frame. -/
  | raw (ds : List Descriptor) : Writes c .raw ds
  /-- `MAN.RECV` -/
  | manReceiver {v : Variant} (hv : v.isManchester = true) (z : Nat) : Writes c v (manReceiverFields z)
  /-- `MAN.PAN` and `MAN.TILT` -/
  | manMove (neg pos : Nat) (x : Int) : Writes c .manPt (manMoveFields neg pos x)
  /-- `MAN.ZOOM`, `MAN.FOCUS` and `MAN.IRIS` -/
  | manLensCode {code : BitVec 3} (h : code ∈ c.lensCodes) : Writes c .manLens [manF3 code.toNat]
  /-- `MAN.AUX` -/
  | manAuxMask (ch : Nat) : Writes c .manAux [manF3 (auxMask ch)]
  /-- `VIC.RECV` -/
  | vicReceiver {v : Variant} (hv : v.isVicon = true) (r : Nat) : Writes c v (vicReceiverFields r)
  /-- The directional setters, and the moves of a Command frame. -/
  | vicPair {v : Variant} (hv : v.isViconCommand = true) {neg pos : Nat} (hp : IsDirectionPair neg pos) (x : Int) :
      Writes c v (pair neg pos x)
  /-- `VIC.PAN` and `VIC.TILT` in a SpeedCommand frame. -/
  | vicSpeed {neg pos : Nat} (hp : IsDirectionPair neg pos) {hi lo : Nat}
      (hs : hi = 48 ∧ lo = 56 ∨ hi = 64 ∧ lo = 72) (x : Int) :
      Writes c .vicSpeed (pair neg pos x ++ vicSpeedFields hi lo x)
  /-- `VIC.AUTOIRIS`, `VIC.AUTOPAN`, `VIC.LENSSPEED` and `VIC.AUX` -/
  | vicFlag {v : Variant} (hv : v.isViconCommand = true) {i : Nat}
      (hi : i = 17 ∨ i = 18 ∨ i = 24 ∨ 33 ≤ i ∧ i ≤ 38) (b : Bool) : Writes c v [flagField i b]

/-- The fixed bits a new frame of variant `v` is committed with (R100, R105, R120-R122, R150-R152). -/
def Variant.fixedWrites (c : Cfg) : Variant → List Descriptor
  | .none => []
  | .raw => []
  | .manPt => [flagField FlagAt.sync true, ⟨FlagAt.disc, 1, c.manPtDisc.toNat⟩]
  | .manLens => [flagField FlagAt.sync true, ⟨FlagAt.disc, 1, (~~~c.manPtDisc).toNat⟩, manF2 c.manFcLens.toNat]
  | .manAux => [flagField FlagAt.sync true, ⟨FlagAt.disc, 1, (~~~c.manPtDisc).toNat⟩, manF2 c.manFcAux.toNat]
  | .vicStatus => [flagField FlagAt.sync true]
  | .vicCmd => [flagField FlagAt.sync true, flagField FlagAt.cmd true]
  | .vicSpeed => [flagField FlagAt.sync true, flagField FlagAt.cmd true, flagField FlagAt.ext true]

/-- The frame a new frame of variant `v` starts as: its fixed bits and nothing else (R28). -/
def Variant.blank (c : Cfg) (v : Variant) : Frame := Frame.zeros.writeAll (v.fixedWrites c)

/-- What an operation gives from `s`: `AnswersFrom`, with the writes and the new frames the operations make. -/
inductive Effect (s : State) : Answer → Prop where
  /-- Only the response is added. -/
  | only (r : Response) : Effect s (.next (s.answer r))
  /-- Writes to the frame held, all of which fit. -/
  | wrote {ds : List Descriptor} (hds : Writes s.cfg s.variant ds) (fit : firstUnfit s.width ds = none) :
      Effect s (.next ((s.withFrame (s.frame.writeAll ds)).answer (.ok .empty)))
  /-- A new frame, whose fixed bits fit. -/
  | made {v : Variant} {w : Nat} (hw : Cfg.frameWidth s.cfg v = some w ∨ v = .raw ∧ w ≤ s.cfg.maxBits)
      (fit : firstUnfit w (v.fixedWrites s.cfg) = none) :
      Effect s (.next ((s.hold v w (v.blank s.cfg)).answer (.ok .empty)))

section
variable {s : State} {k : Answer}

theorem commit_effect {ds : List Descriptor} (h : Writes s.cfg s.variant ds) : Effect s (commit ds s) := by
  cases fit : firstUnfit s.width ds with
  | none => rw [commit_of_fits fit]; exact .wrote h fit
  | some d => rw [commit_of_unfit fit]; exact .only _

theorem newFrame_effect {v : Variant} {w : Nat}
    (hw : Cfg.frameWidth s.cfg v = some w ∨ v = .raw ∧ w ≤ s.cfg.maxBits) :
    Effect s (newFrame v w (v.fixedWrites s.cfg) s) := by
  cases fit : firstUnfit w (v.fixedWrites s.cfg) with
  | none => rw [newFrame_of_fits fit]; exact .made hw fit
  | some d => rw [newFrame_of_unfit fit]; exact .only _

theorem onlyIn_effect {vs : List Variant} (h : s.variant ∈ vs → Effect s k) : Effect s (onlyIn vs s k) := by
  by_cases hm : s.variant ∈ vs
  · rw [onlyIn_of_mem hm]; exact h hm
  · rw [onlyIn_of_not_mem hm]; exact .only _

theorem rejectIf_effect {bad : Bool} {v : Int} (h : bad = false → Effect s k) : Effect s (rejectIf bad v s k) := by
  cases bad
  · exact h rfl
  · exact .only _

/-- An operation accepted in one variant alone commits the writes of that variant. -/
theorem onlyIn_commit_effect {v : Variant} {ds : List Descriptor} (h : Writes s.cfg v ds) :
    Effect s (onlyIn [v] s (commit ds s)) :=
  onlyIn_effect fun hm => commit_effect (List.mem_singleton.mp hm ▸ h)

end

theorem isManchester_of_mem {v : Variant} (h : v ∈ [Variant.manPt, .manLens, .manAux]) : v.isManchester = true := by
  revert v; decide

theorem manMove_effect (neg pos : Nat) (v : Int) (s : State) : Effect s (manMove neg pos v s) :=
  onlyIn_effect fun hm => rejectIf_effect fun _ =>
    commit_effect (List.mem_singleton.mp hm ▸ .manMove neg pos v)

theorem manLens_effect {s : State} {code : BitVec 3} (h : code ∈ s.cfg.lensCodes) (v : Int) :
    Effect s (manLens code v s) := by
  refine onlyIn_effect fun hm => ?_
  split
  · exact .only _
  · exact commit_effect (List.mem_singleton.mp hm ▸ .manLensCode h)

theorem focusCode_mem (c : Cfg) (v : Int) : focusCode c v ∈ c.lensCodes := by
  unfold focusCode; split <;> simp [Cfg.lensCodes]

theorem irisCode_mem (c : Cfg) (v : Int) : irisCode c v ∈ c.lensCodes := by
  unfold irisCode; split <;> simp [Cfg.lensCodes]

theorem isVicon_of_mem {v : Variant} (h : v ∈ [Variant.vicStatus, .vicCmd, .vicSpeed]) : v.isVicon = true := by
  revert v; decide

theorem isViconCommand_of_mem {v : Variant} (h : v ∈ [Variant.vicCmd, .vicSpeed]) : v.isViconCommand = true := by
  revert v; decide

theorem vicMove_effect {neg pos hi lo : Nat} (hp : IsDirectionPair neg pos)
    (hs : hi = 48 ∧ lo = 56 ∨ hi = 64 ∧ lo = 72) (v : Int) (s : State) :
    Effect s (vicMove neg pos hi lo v s) := by
  refine onlyIn_effect fun hm => ?_
  split
  next hv => exact rejectIf_effect fun _ => commit_effect (hv ▸ .vicSpeed hp hs v)
  next => exact commit_effect (.vicPair (isViconCommand_of_mem hm) hp v)

theorem vicSet_effect {s : State} {ds : List Descriptor}
    (h : ∀ {v : Variant}, v.isViconCommand = true → Writes s.cfg v ds) : Effect s (vicSet ds s) :=
  onlyIn_effect fun hm => commit_effect (h (isViconCommand_of_mem hm))

theorem vicSet_pair_effect {neg pos : Nat} (hp : IsDirectionPair neg pos) (v : Int) (s : State) :
    Effect s (vicSet (pair neg pos v) s) :=
  vicSet_effect fun hv => .vicPair hv hp v

/-- What every operation does, said once: each of the thirty makes only its own writes or its own new frame. -/
theorem exec_effect (i : Instr) (s : State) : Effect s (exec i s) := by
  cases i with
  | bbNew n =>
    simp only [exec, execBbNew]
    split
    next => exact .only _
    next hn => exact newFrame_effect (v := .raw) (.inr ⟨rfl, Nat.le_of_not_gt hn⟩)
  | bbGet k => simp only [exec, execBbGet]; split <;> exact .only _
  | bbSet k b => exact onlyIn_commit_effect (.raw _)
  | bbWrf first count value => exact onlyIn_commit_effect (.raw _)
  | bbOctets => exact .only _
  | frameDiscard => exact .made (v := .none) (.inl rfl) rfl
  | frameInfo => exact .only _
  | manNewPt => exact newFrame_effect (v := .manPt) (.inl rfl)
  | manNewLens => exact newFrame_effect (v := .manLens) (.inl rfl)
  | manNewAux => exact newFrame_effect (v := .manAux) (.inl rfl)
  | manRecv r =>
    exact onlyIn_effect fun hm => rejectIf_effect fun _ => commit_effect (.manReceiver (isManchester_of_mem hm) _)
  | manPan v => exact manMove_effect _ _ v s
  | manTilt v => exact manMove_effect _ _ v s
  | manZoom v => exact manLens_effect (by split <;> simp [Cfg.lensCodes]) v
  | manFocus v => exact manLens_effect (focusCode_mem _ v) v
  | manIris v => exact manLens_effect (irisCode_mem _ v) v
  | manAux ch =>
    exact onlyIn_effect fun hm => rejectIf_effect fun _ =>
      commit_effect (List.mem_singleton.mp hm ▸ .manAuxMask _)
  | vicNewStatus => exact newFrame_effect (v := .vicStatus) (.inl rfl)
  | vicNewCmd => exact newFrame_effect (v := .vicCmd) (.inl rfl)
  | vicNewSpeed => exact newFrame_effect (v := .vicSpeed) (.inl rfl)
  | vicRecv r =>
    exact onlyIn_effect fun hm => rejectIf_effect fun _ => commit_effect (.vicReceiver (isVicon_of_mem hm) _)
  | vicPan v => exact vicMove_effect (by decide) (.inl ⟨rfl, rfl⟩) v s
  | vicTilt v => exact vicMove_effect (by decide) (.inr ⟨rfl, rfl⟩) v s
  | vicZoom v => exact vicSet_pair_effect (by decide) v s
  | vicIris v => simp only [exec, execVicIris]; split <;> exact vicSet_pair_effect (by decide) v s
  | vicFocus v => simp only [exec, execVicFocus]; split <;> exact vicSet_pair_effect (by decide) v s
  | vicAutoIris b => exact vicSet_effect fun hv => .vicFlag hv (.inl rfl) b
  | vicAutoPan b => exact vicSet_effect fun hv => .vicFlag hv (.inr (.inl rfl)) b
  | vicLensSpeed b => exact vicSet_effect fun hv => .vicFlag hv (.inr (.inr (.inl rfl))) b
  | vicAux ch b =>
    refine onlyIn_effect fun hm => rejectIf_effect fun hb => commit_effect (.vicFlag (isViconCommand_of_mem hm) ?_ b)
    simp only [badChannel, decide_eq_false_iff_not] at hb
    simp only [FlagAt.aux]
    omega

theorem serve_effect (w : OpWord) (s : State) : Effect s (serve w s) := by
  unfold serve
  split
  · exact exec_effect _ _
  · exact .only _

/-- A step that goes on took a word and had the effect of serving it. -/
theorem step_effect {s t : State} (h : step s = .next t) :
    ∃ rest, Effect { s with requests := rest } (.next t) := by
  cases hr : s.requests with
  | nil => rw [step_nil hr] at h; cases h
  | cons w rest => exact ⟨rest, h ▸ step_cons hr ▸ serve_effect w _⟩

/-! ### What the writes leave unchanged -/

/-- The bits a variant fixes besides the sync flag: DISC, the function code, CMD and EXT (R63, R64, R68). -/
def Variant.fixedBit : Variant → Nat → Bool
  | .manPt, k => k = 17
  | .manLens, k => k = 12 ∨ k = 13 ∨ k = 17
  | .manAux, k => k = 12 ∨ k = 13 ∨ k = 17
  | .vicCmd, k => k = 12
  | .vicSpeed, k => k = 12 ∨ k = 14
  | _, _ => false

/-- The bits no operation writes in a frame of variant `v`: unused, fixed, or the sync flag. -/
def Variant.keepsBit (v : Variant) (k : Nat) : Bool :=
  v.unusedBit k || v.fixedBit k || (v.isCodec && k = 7)

theorem mem_pair_span {neg pos : Nat} {x : Int} {d : Descriptor} (h : d ∈ pair neg pos x) :
    d.count = 1 ∧ (d.first = neg ∨ d.first = pos) := by
  simp only [pair, List.mem_append, List.mem_cons, List.not_mem_nil, or_false] at h
  rcases h with ((rfl | rfl) | h) | h
  · exact ⟨rfl, .inl rfl⟩
  · exact ⟨rfl, .inr rfl⟩
  · split at h
    · obtain rfl := List.mem_singleton.mp h; exact ⟨rfl, .inl rfl⟩
    · cases h
  · split at h
    · obtain rfl := List.mem_singleton.mp h; exact ⟨rfl, .inr rfl⟩
    · cases h

theorem mem_manReceiverFields_span {z : Nat} {d : Descriptor} (h : d ∈ manReceiverFields z) :
    d.first + d.count ≤ 2 ∨ (8 ≤ d.first ∧ d.first + d.count ≤ 9) ∨ (18 ≤ d.first ∧ d.first + d.count ≤ 23) := by
  simp only [manReceiverFields, List.mem_cons, List.not_mem_nil, or_false] at h
  rcases h with rfl | rfl | rfl <;> simp

theorem mem_vicReceiverFields_span {r : Nat} {d : Descriptor} (h : d ∈ vicReceiverFields r) :
    d.first + d.count ≤ 4 ∨ (8 ≤ d.first ∧ d.first + d.count ≤ 12) := by
  simp only [vicReceiverFields, List.mem_cons, List.not_mem_nil, or_false] at h
  rcases h with rfl | rfl <;> simp

theorem mem_vicSpeedFields_span {hi lo : Nat} {x : Int} {d : Descriptor} (h : d ∈ vicSpeedFields hi lo x) :
    (d.first = hi ∧ d.count = 4) ∨ (d.first = lo ∧ d.count = 7) := by
  simp only [vicSpeedFields, List.mem_cons, List.not_mem_nil, or_false] at h
  rcases h with rfl | rfl <;> simp

theorem mem_manMoveFields_span {neg pos : Nat} {x : Int} {d : Descriptor} (h : d ∈ manMoveFields neg pos x) :
    9 ≤ d.first ∧ d.first + d.count ≤ 14 := by
  simp only [manMoveFields, List.mem_append, List.mem_singleton] at h
  rcases h with (h | h) | rfl
  · split at h
    · obtain rfl := List.mem_singleton.mp h; simp [manF2]
    · cases h
  · split at h
    · obtain rfl := List.mem_singleton.mp h; simp [manF2]
    · cases h
  · simp [manF3]

section
variable {v : Variant} {k : Nat}

/-- The receiver's pieces and F3 stand in no kept bit of a Manchester frame (R61). -/
theorem Variant.keepsBit_manchester (hv : v.isManchester = true) (hk : v.keepsBit k = true) :
    2 ≤ k ∧ ¬ (8 ≤ k ∧ k ≤ 11) ∧ ¬ (18 ≤ k ∧ k ≤ 22) := by
  cases v <;> simp [isManchester, keepsBit, unusedBit, fixedBit] at hv hk <;> omega

/-- A pan/tilt frame's F2 and F3 stand in no kept bit (R61). -/
theorem Variant.keepsBit_manPt (hk : Variant.manPt.keepsBit k = true) : ¬ (9 ≤ k ∧ k ≤ 13) := by
  simp [keepsBit, unusedBit, fixedBit] at hk; omega

/-- The receiver's nibbles stand in no kept bit of a Vicon frame (R68). -/
theorem Variant.keepsBit_vicon (hv : v.isVicon = true) (hk : v.keepsBit k = true) :
    4 ≤ k ∧ ¬ (8 ≤ k ∧ k ≤ 11) := by
  cases v <;> simp [isVicon, isViconCommand, keepsBit, unusedBit, fixedBit] at hv hk <;> omega

/-- The flags of R69 stand in no kept bit of a Vicon command frame. -/
theorem Variant.keepsBit_viconCommand (hv : v.isViconCommand = true) (hk : v.keepsBit k = true) :
    ¬ (17 ≤ k ∧ k ≤ 22) ∧ ¬ (24 ≤ k ∧ k ≤ 30) ∧ ¬ (33 ≤ k ∧ k ≤ 38) := by
  cases v <;> simp [isViconCommand, keepsBit, unusedBit, fixedBit] at hv hk <;> omega

/-- The speed fields stand in no kept bit of a SpeedCommand frame (R70). -/
theorem Variant.keepsBit_vicSpeed (hk : Variant.vicSpeed.keepsBit k = true) :
    ¬ (48 ≤ k ∧ k ≤ 51) ∧ ¬ (56 ≤ k ∧ k ≤ 62) ∧ ¬ (64 ≤ k ∧ k ≤ 67) ∧ ¬ (72 ≤ k ∧ k ≤ 78) := by
  simp [keepsBit, unusedBit, fixedBit] at hk; omega

theorem Variant.keepsBit_raw : Variant.raw.keepsBit k = false := rfl

end

/-- The writes of an operation keep every bit it may not touch (R26, R61, R63, R64, R68-R70). -/
theorem Writes.bit_of_keepsBit {c : Cfg} {v : Variant} {ds : List Descriptor} (h : Writes c v ds) {k : Nat}
    (hk : v.keepsBit k = true) (f : Frame) : (f.writeAll ds).bit k = f.bit k := by
  refine Frame.bit_writeAll_of_outside fun d hd => ?_
  cases h with
  | raw ds => rw [Variant.keepsBit_raw] at hk; cases hk
  | manReceiver hv z =>
    have := Variant.keepsBit_manchester hv hk
    have := mem_manReceiverFields_span hd
    omega
  | manMove neg pos x =>
    have := Variant.keepsBit_manPt hk
    have := mem_manMoveFields_span hd
    omega
  | manLensCode h =>
    have := Variant.keepsBit_manchester rfl hk
    obtain rfl := List.mem_singleton.mp hd
    simp only [manF3]; omega
  | manAuxMask ch =>
    have := Variant.keepsBit_manchester rfl hk
    obtain rfl := List.mem_singleton.mp hd
    simp only [manF3]; omega
  | vicReceiver hv r =>
    have := Variant.keepsBit_vicon hv hk
    have := mem_vicReceiverFields_span hd
    omega
  | vicPair hv hp x =>
    have := Variant.keepsBit_viconCommand hv hk
    have := mem_pair_span hd
    have := hp.flags
    omega
  | vicSpeed hp hs x =>
    have := Variant.keepsBit_viconCommand rfl hk
    have := Variant.keepsBit_vicSpeed hk
    have := hp.flags
    rcases List.mem_append.mp hd with hd | hd
    · have := mem_pair_span hd
      omega
    · have := mem_vicSpeedFields_span hd
      omega
  | vicFlag hv hi b =>
    have := Variant.keepsBit_viconCommand hv hk
    obtain rfl := List.mem_singleton.mp hd
    simp only [flagField]; omega

theorem Variant.isManchester_of_viconCommand : ∀ {v : Variant}, v.isViconCommand = true → v.isManchester = false
  | .vicCmd, rfl => rfl
  | .vicSpeed, rfl => rfl

/-- In a Vicon command frame every write keeps the direction pairs exclusive (R27, R164). -/
theorem Writes.pairsExclusive {c : Cfg} {v : Variant} {ds : List Descriptor} (h : Writes c v ds)
    (hv : v.isViconCommand = true) {f : Frame} (hf : f.PairsExclusive) : (f.writeAll ds).PairsExclusive := by
  cases h with
  | raw ds => cases hv
  | manReceiver hm z => rw [Variant.isManchester_of_viconCommand hv] at hm; cases hm
  | manMove neg pos x => cases hv
  | manLensCode h => cases hv
  | manAuxMask ch => cases hv
  | vicReceiver _ r =>
    refine hf.of_bit_eq fun k hk => Frame.bit_writeAll_of_outside fun d hd => ?_
    have := mem_vicReceiverFields_span hd
    omega
  | vicPair _ hp x => exact hf.writeAll_pair hp x
  | vicSpeed hp hs x =>
    rw [Frame.writeAll_append]
    refine (hf.writeAll_pair hp x).of_bit_eq fun k hk => Frame.bit_writeAll_of_outside fun d hd => ?_
    have := mem_vicSpeedFields_span hd
    omega
  | vicFlag _ hi b =>
    refine hf.of_bit_eq fun k hk => Frame.bit_writeAll_of_outside fun d hd => ?_
    obtain rfl := List.mem_singleton.mp hd
    simp only [flagField]; omega

/-! ### The Manchester field F3 -/

theorem auxMask_mem (ch : Nat) : auxMask ch ∈ [0, 2, 4, 6, 3, 5, 7] := by
  unfold auxMask; split <;> decide

/-- Writing F3 leaves the code in it, when the code has three bits (R61). -/
theorem Frame.field_manF3 (f : Frame) {code : Nat} (h : code < 8) : (f.writeAll [manF3 code]).field 9 3 = code :=
  (f.field_write_same (manF3 code)).trans (Nat.mod_eq_of_lt h)

/-- The receiver's pieces leave F3 alone (R62). -/
theorem Frame.field_manReceiverFields (f : Frame) (z : Nat) :
    (f.writeAll (manReceiverFields z)).field 9 3 = f.field 9 3 := by
  refine Frame.field_congr fun j hj => Frame.bit_writeAll_of_outside fun d hd => ?_
  have := mem_manReceiverFields_span hd
  omega

/-- A write to a lens frame keeps F3 or puts one of the six codes in it (R65, R121-R129). -/
theorem Writes.field_manLens {c : Cfg} {ds : List Descriptor} (h : Writes c .manLens ds) (f : Frame) :
    (f.writeAll ds).field 9 3 = f.field 9 3 ∨ (f.writeAll ds).field 9 3 ∈ c.lensCodes.map BitVec.toNat := by
  cases h with
  | manReceiver _ z => exact .inl (f.field_manReceiverFields z)
  | @manLensCode code hc => rw [f.field_manF3 code.isLt]; exact .inr (List.mem_map_of_mem hc)
  | vicReceiver hv => cases hv
  | vicPair hv => cases hv
  | vicFlag hv => cases hv

/-- A write to an auxiliary frame keeps F3 or puts a mask in it (R66, R131). -/
theorem Writes.field_manAux {c : Cfg} {ds : List Descriptor} (h : Writes c .manAux ds) (f : Frame) :
    (f.writeAll ds).field 9 3 = f.field 9 3 ∨ (f.writeAll ds).field 9 3 ∈ [0, 2, 4, 6, 3, 5, 7] := by
  cases h with
  | manReceiver _ z => exact .inl (f.field_manReceiverFields z)
  | manAuxMask ch =>
    have hm := auxMask_mem ch
    have hlt : auxMask ch < 8 := by simp only [List.mem_cons, List.not_mem_nil, or_false] at hm; omega
    rw [f.field_manF3 hlt]; exact .inr hm
  | vicReceiver hv => cases hv
  | vicPair hv => cases hv
  | vicFlag hv => cases hv

theorem State.fieldCodes_iff (s : State) : s.fieldCodes = true ↔
    (s.variant = .manLens → s.frame.field 9 3 = 0 ∨ s.frame.field 9 3 ∈ s.cfg.lensCodes.map BitVec.toNat) ∧
      (s.variant = .manAux → s.frame.field 9 3 ∈ [0, 2, 4, 6, 3, 5, 7]) := by
  unfold State.fieldCodes
  cases s.variant <;> simp

/-! ### The parts of the invariant after a write -/

section
variable {s : State} {ds : List Descriptor}

theorem Writes.syncSet (h : Writes s.cfg s.variant ds) (hs : s.SyncSet) :
    (s.withFrame (s.frame.writeAll ds)).SyncSet := fun hc => by
  rw [State.withFrame_frame, h.bit_of_keepsBit (by simpa [Variant.keepsBit] using .inr hc)]
  exact hs hc

theorem Writes.unusedZero (h : Writes s.cfg s.variant ds) (hs : s.UnusedZero) :
    (s.withFrame (s.frame.writeAll ds)).UnusedZero := fun k hk => by
  rw [State.withFrame_frame, Frame.mem_ones] at hk
  rw [State.withFrame_variant]
  by_contra hu
  rw [h.bit_of_keepsBit (by simp [Variant.keepsBit, hu])] at hk
  exact hu (hs k (Frame.mem_ones.mpr hk))

/-- F2 is a fixed field in those variants alone whose two bits of it are fixed. -/
theorem Writes.fixedFields (h : Writes s.cfg s.variant ds) :
    (s.withFrame (s.frame.writeAll ds)).fixedFields = s.fixedFields := by
  have hb : ∀ k, s.variant.fixedBit k = true → (s.frame.writeAll ds).bit k = s.frame.bit k :=
    fun k hk => h.bit_of_keepsBit (by simp [Variant.keepsBit, hk]) _
  have hF2 : s.variant.fixedBit 12 = true → s.variant.fixedBit 13 = true →
      (s.frame.writeAll ds).field 12 2 = s.frame.field 12 2 := fun h12 h13 => by
    simp only [Frame.field, Nat.add_zero, hb 12 h12, hb 13 h13]
  cases hv : s.variant <;> simp only [hv, Variant.fixedBit] at hb hF2 <;>
    simp [State.fixedFields, hv, hb, hF2]

theorem Writes.fieldCodes (h : Writes s.cfg s.variant ds) (hs : s.fieldCodes = true) :
    (s.withFrame (s.frame.writeAll ds)).fieldCodes = true := by
  rw [State.fieldCodes_iff] at hs ⊢
  refine ⟨fun hv => ?_, fun hv => ?_⟩ <;> rw [State.withFrame_variant] at hv <;> rw [hv] at h
  · rcases h.field_manLens s.frame with hF3 | hF3
    · rw [State.withFrame_frame, hF3]; exact hs.1 hv
    · exact .inr hF3
  · rcases h.field_manAux s.frame with hF3 | hF3
    · rw [State.withFrame_frame, hF3]; exact hs.2 hv
    · exact hF3

/-- Writes that fit keep the invariant. -/
theorem Writes.inv (h : Writes s.cfg s.variant ds) (fit : firstUnfit s.width ds = none) (hs : s.Inv) :
    (s.withFrame (s.frame.writeAll ds)).Inv := by
  obtain ⟨hcfg, hwf, hwidth, hbound, hbits, hsync, hpairs, hunused, hfixed, hcodes⟩ := hs
  refine ⟨hcfg, Frame.wf_writeAll hwf, hwidth, hbound, fun k hk => ?_, h.syncSet hsync,
    fun hv => h.pairsExclusive hv (hpairs hv), h.unusedZero hunused, h.fixedFields.trans hfixed, h.fieldCodes hcodes⟩
  by_contra hge
  rw [State.withFrame_frame, Frame.mem_ones, Frame.bit_writeAll_above fit (Nat.le_of_not_lt hge),
    ← Frame.mem_ones] at hk
  exact hge (hbits k hk)

end

/-! ### A new frame meets the invariant -/

/-- In a new frame only the sync flag and the fixed bits of the variant can be 1. -/
theorem Variant.bit_blank (c : Cfg) {v : Variant} {k : Nat} (h7 : v.isCodec = true → k ≠ 7)
    (h : v.fixedBit k = false) : (v.blank c).bit k = false := by
  refine (Frame.bit_writeAll_of_outside fun d hd => ?_).trans (Frame.bit_zeros k)
  cases v <;> simp [isCodec, isManchester, isVicon, isViconCommand] at h7 <;>
    simp only [fixedBit, decide_eq_false_iff_not] at h <;>
    simp only [fixedWrites, List.mem_cons, List.not_mem_nil, or_false] at hd
  case manPt => rcases hd with rfl | rfl <;> simp [flagField, FlagAt.sync, FlagAt.disc] <;> omega
  case manLens => rcases hd with rfl | rfl | rfl <;> simp [flagField, FlagAt.sync, FlagAt.disc, manF2] <;> omega
  case manAux => rcases hd with rfl | rfl | rfl <;> simp [flagField, FlagAt.sync, FlagAt.disc, manF2] <;> omega
  case vicStatus => subst hd; simp [flagField, FlagAt.sync]; omega
  case vicCmd => rcases hd with rfl | rfl <;> simp [flagField, FlagAt.sync, FlagAt.cmd] <;> omega
  case vicSpeed => rcases hd with rfl | rfl | rfl <;> simp [flagField, FlagAt.sync, FlagAt.cmd, FlagAt.ext] <;> omega

theorem Variant.sync_blank (c : Cfg) {v : Variant} (hv : v.isCodec = true) : (v.blank c).bit 7 = true := by
  cases v <;> simp [isCodec, isManchester, isVicon, isViconCommand] at hv <;>
    simp [blank, fixedWrites, flagField, FlagAt.sync, FlagAt.disc, manF2, FlagAt.cmd, FlagAt.ext]

theorem Variant.unusedBit_not_fixed {v : Variant} {k : Nat} (h : v.unusedBit k = true) :
    (v.isCodec = true → k ≠ 7) ∧ v.fixedBit k = false := by
  cases v <;> simp [unusedBit, fixedBit, isCodec, isManchester, isVicon, isViconCommand] at h ⊢ <;> omega

/-- A bit written from a one-bit parameter reads back that parameter. -/
theorem Frame.bit_write_bitVec (f : Frame) (i : Nat) (d : BitVec 1) :
    (f.write ⟨i, 1, d.toNat⟩).bit i = d.getLsbD 0 := by
  rw [Frame.bit_write, if_pos (by simp), Nat.sub_self, BitVec.testBit_toNat]

/-- DISC and F2 after the fixed writes of a lens or an auxiliary frame (R63, R64). -/
theorem Frame.discF2_writeAll (f : Frame) (d : BitVec 1) (code : BitVec 2) :
    (f.writeAll [⟨FlagAt.disc, 1, (~~~d).toNat⟩, manF2 code.toNat]).bit 17 = !d.getLsbD 0 ∧
      (f.writeAll [⟨FlagAt.disc, 1, (~~~d).toNat⟩, manF2 code.toNat]).field 12 2 = code.toNat := by
  refine ⟨?_, ?_⟩
  · rw [Frame.writeAll_cons, Frame.bit_writeAll_of_outside (by simp [manF2])]
    exact (Frame.bit_write_bitVec f FlagAt.disc (~~~d)).trans (by simp)
  · exact (Frame.field_write_same _ (manF2 code.toNat)).trans (Nat.mod_eq_of_lt code.isLt)

/-- A legal CFG makes no frame wider than FRAME (R7, R20). -/
theorem frameWidth_le_maxBits {c : Cfg} (hc : c.Legal) {v : Variant} {w : Nat}
    (h : Cfg.frameWidth c v = some w) : w ≤ c.maxBits := by
  obtain ⟨hman, hcmd, hspeed, -⟩ := hc
  cases v <;> simp [Cfg.frameWidth] at h <;> omega

section
variable {s : State} {v : Variant} {w : Nat}

theorem hold_blank_unusedZero : (s.hold v w (v.blank s.cfg)).UnusedZero := fun k hk => by
  rw [State.hold_frame, Frame.mem_ones] at hk
  rw [State.hold_variant]
  by_contra hu
  obtain ⟨h7, hf⟩ := Variant.unusedBit_not_fixed (by simpa using hu)
  rw [Variant.bit_blank _ h7 hf] at hk
  cases hk

theorem blank_pairsExclusive (c : Cfg) : (v.blank c).PairsExclusive := by
  rintro p hp ⟨h1, -⟩
  have hk := (directionPairs_flags p hp).2 p.1 (by simp)
  rw [Variant.bit_blank c (fun _ => by omega) (by cases v <;> simp [Variant.fixedBit] <;> omega)] at h1
  cases h1

theorem hold_blank_fieldCodes : (s.hold v w (v.blank s.cfg)).fieldCodes = true := by
  have hF3 : (v.blank s.cfg).field 9 3 = 0 := Frame.field_eq_zero fun j hj =>
    Variant.bit_blank _ (fun _ => by omega) (by cases v <;> simp [Variant.fixedBit] <;> omega)
  rw [State.fieldCodes_iff, State.hold_frame, hF3]
  exact ⟨fun _ => .inl rfl, fun _ => by decide⟩

theorem hold_blank_fixedFields : (s.hold v w (v.blank s.cfg)).fixedFields = true := by
  cases v with
  | none => rfl
  | raw => rfl
  | manPt => exact decide_eq_true (Frame.bit_write_bitVec _ FlagAt.disc s.cfg.manPtDisc)
  | manLens => exact decide_eq_true (Frame.discF2_writeAll _ s.cfg.manPtDisc s.cfg.manFcLens)
  | manAux => exact decide_eq_true (Frame.discF2_writeAll _ s.cfg.manPtDisc s.cfg.manFcAux)
  | vicStatus => rfl
  | vicCmd => simp [State.fixedFields, Variant.blank, Variant.fixedWrites, flagField, FlagAt.cmd]
  | vicSpeed => simp [State.fixedFields, Variant.blank, Variant.fixedWrites, flagField, FlagAt.cmd, FlagAt.ext]

/-- A new frame of the variant's width meets the whole invariant under a legal CFG (R22, R23, R26-R28). -/
theorem hold_blank_inv (hc : s.cfg.Legal) (hw : Cfg.frameWidth s.cfg v = some w ∨ v = .raw ∧ w ≤ s.cfg.maxBits)
    (fit : firstUnfit w (v.fixedWrites s.cfg) = none) : (s.hold v w (v.blank s.cfg)).Inv := by
  refine ⟨hc, Frame.wf_writeAll Frame.wf_zeros, ?_, ?_, fun k hk => ?_, Variant.sync_blank s.cfg,
    fun _ => blank_pairsExclusive s.cfg, hold_blank_unusedZero, hold_blank_fixedFields, hold_blank_fieldCodes⟩
  · rcases hw with hw | ⟨rfl, -⟩
    · exact .inr hw
    · exact .inl rfl
  · rcases hw with hw | ⟨rfl, hle⟩
    · exact frameWidth_le_maxBits hc hw
    · exact hle
  · by_contra hge
    rw [State.hold_frame, Frame.mem_ones, Variant.blank, Frame.bit_writeAll_above fit (Nat.le_of_not_lt hge)] at hk
    cases hk

end

/-- Every effect of an operation keeps the invariant. -/
theorem Effect.inv {s t : State} (h : Effect s (.next t)) (hs : s.Inv) : t.Inv := by
  cases h with
  | only r => exact hs
  | wrote hds fit => exact hds.inv fit hs
  | made hw fit => exact hold_blank_inv hs.1 hw fit

/-- The codes a permutation picks for distinct indices are pairwise distinct. -/
theorem nodup_map_ofFin {n : Nat} (σ : Equiv.Perm (Fin (2 ^ n))) {is : List (Fin (2 ^ n))} (h : is.Nodup) :
    (is.map fun i => BitVec.ofFin (σ i)).Nodup :=
  h.map fun _ _ hij => σ.injective (congrArg BitVec.toFin hij)

/-- The CFG at reset is legal, whatever permutations its OPEN codes come from (R7). -/
theorem cfg_legal : Config.cfg.Legal :=
  ⟨by decide, by decide, by decide, by decide, by decide, by decide,
    nodup_map_ofFin (n := 2) Config.manFunctionCodes (is := [0, 1, 2, 3]) (by decide),
    nodup_map_ofFin (n := 3) Config.manLensCodes (is := [0, 1, 2, 3, 4, 5]) (by decide)⟩

/-- Reset leaves the new frame of variant NONE (R29). -/
theorem resetWith_inv {c : Cfg} (hc : c.Legal) : (State.resetWith c).Inv :=
  hold_blank_inv (s := State.resetWith c) (v := .none) (w := 0) hc (.inl rfl) rfl

/-! ### The statements -/

/-- Settles O55: a step has the effect of the word it served, and each effect keeps the invariant. -/
theorem everyStepKeepsTheInvariant : Obligations.EveryStepKeepsTheInvariant := by
  intro s t hs h
  obtain ⟨rest, he⟩ := step_effect h
  exact he.inv hs

/-- Settles O11: every word is answered in one of the three shapes, each with one response more and CFG kept. -/
theorem stepTakesOneWordAndKeepsCfg : Obligations.StepTakesOneWordAndKeepsCfg := by
  intro s w rest h
  obtain ⟨t, r, hnext, hresp, hcfg, hreq⟩ := (serve_answers w { s with requests := rest }).next
  exact ⟨t, r, (step_cons h).trans hnext, hreq, hresp, by simp [State.position, hresp], hcfg⟩

/-- Settles O7: serving a word that decodes is `exec` of the operation. -/
theorem stepRunsTheDecodedOperation : Obligations.StepRunsTheDecodedOperation := by
  intro s w rest i h hd
  rw [step_cons h, serve, hd]

/-- Settles O54: reset leaves the new frame of variant NONE, and R7's defaults with the free codes are legal. -/
theorem resetMeetsTheInvariant : Obligations.ResetMeetsTheInvariant :=
  ⟨fun _ hc => resetWith_inv hc, resetWith_inv cfg_legal⟩

end Sys2Proof.Machine

/-! PROOFS of 10_state.md: what no operation reads (R30), and each part of the invariant kept from its own premise alone.
`AnswersAlike` says once what it is not to read the port; `Effect` gives the parts of the invariant. -/

namespace Sys2Proof.Machine

/-! ### The host's side of the port is never read (R30, R186) -/

/-- `s` with another record of responses and other words to come: the fields that stand for the host's side of the port
(log entries 4, 5). -/
def State.withPort (s : State) (rs : List Response) (qs : List OpWord) : State :=
  { s with responses := rs, requests := qs }

/-- The answers of `s` and of `s.withPort rs qs` are alike: both give the response `r` and no other, and the states they
lead to differ in the port alone. -/
inductive AnswersAlike (s : State) (rs : List Response) (qs : List OpWord) : Answer → Answer → Prop where
  | next (t : State) (r : Response) (h : t.responses = s.responses := by rfl) :
      AnswersAlike s rs qs (.next (t.answer r)) (.next ((t.withPort rs qs).answer r))

section
variable {s : State} {rs : List Response} {qs : List OpWord} {k k' : Answer}

/-- A response alone: `respond` and `raise` on the state as it was. -/
theorem AnswersAlike.only (r : Response) :
    AnswersAlike s rs qs (.next (s.answer r)) (.next ((s.withPort rs qs).answer r)) := .next s r

theorem ite_alike {c : Prop} [Decidable c] {l l' : Answer} (h : AnswersAlike s rs qs k k')
    (h' : AnswersAlike s rs qs l l') : AnswersAlike s rs qs (if c then k else l) (if c then k' else l') := by
  split
  · exact h
  · exact h'

theorem onlyIn_alike {vs : List Variant} (h : AnswersAlike s rs qs k k') :
    AnswersAlike s rs qs (onlyIn vs s k) (onlyIn vs (s.withPort rs qs) k') := ite_alike h (.only _)

theorem rejectIf_alike {bad : Bool} {v : Int} (h : AnswersAlike s rs qs k k') :
    AnswersAlike s rs qs (rejectIf bad v s k) (rejectIf bad v (s.withPort rs qs) k') := ite_alike (.only _) h

theorem commit_alike (ds : List Descriptor) : AnswersAlike s rs qs (commit ds s) (commit ds (s.withPort rs qs)) := by
  cases fit : firstUnfit s.width ds with
  | none => rw [commit_of_fits fit, commit_of_fits (s := s.withPort rs qs) fit]; exact .next (s.withFrame _) _
  | some d => rw [commit_of_unfit fit, commit_of_unfit (s := s.withPort rs qs) fit]; exact .only _

theorem newFrame_alike (v : Variant) (w : Nat) (ds : List Descriptor) :
    AnswersAlike s rs qs (newFrame v w ds s) (newFrame v w ds (s.withPort rs qs)) := by
  cases fit : firstUnfit w ds with
  | none => rw [newFrame_of_fits fit, newFrame_of_fits fit]; exact .next (s.hold v w _) _
  | some d => rw [newFrame_of_unfit fit, newFrame_of_unfit fit]; exact .only _

/-- The shape of most setters: the variant check, then the operand check, then the writes. -/
theorem onlyIn_rejectIf_commit_alike (vs : List Variant) (bad : Bool) (v : Int) (ds : List Descriptor) :
    AnswersAlike s rs qs (onlyIn vs s (rejectIf bad v s (commit ds s)))
      (onlyIn vs (s.withPort rs qs) (rejectIf bad v (s.withPort rs qs) (commit ds (s.withPort rs qs)))) :=
  onlyIn_alike (rejectIf_alike (commit_alike ds))

theorem manLens_alike (code : BitVec 3) (v : Int) :
    AnswersAlike s rs qs (manLens code v s) (manLens code v (s.withPort rs qs)) :=
  onlyIn_alike (ite_alike (.only _) (commit_alike _))

theorem vicMove_alike (neg pos hi lo : Nat) (v : Int) :
    AnswersAlike s rs qs (vicMove neg pos hi lo v s) (vicMove neg pos hi lo v (s.withPort rs qs)) :=
  onlyIn_alike (ite_alike (rejectIf_alike (commit_alike _)) (commit_alike _))

theorem vicSet_alike (ds : List Descriptor) : AnswersAlike s rs qs (vicSet ds s) (vicSet ds (s.withPort rs qs)) :=
  onlyIn_alike (commit_alike ds)

/-- Every check and every value an operation uses comes from VARIANT, WIDTH, FRAME and CFG, which `withPort` keeps. The
frames of fixed width name their width and fixed writes, or Lean would run their span check before it sees `newFrame`. -/
theorem exec_alike (i : Instr) (s : State) (rs : List Response) (qs : List OpWord) :
    AnswersAlike s rs qs (exec i s) (exec i (s.withPort rs qs)) := by
  cases i with
  | bbNew n => exact ite_alike (.only _) (newFrame_alike _ _ _)
  | bbGet k => exact ite_alike (.only _) (.only _)
  | bbSet k b => exact onlyIn_alike (commit_alike _)
  | bbWrf first count value => exact onlyIn_alike (commit_alike _)
  | bbOctets => exact .only _
  | frameDiscard => exact .next s.resetBlock _
  | frameInfo => exact .only _
  | manNewPt => exact newFrame_alike .manPt Config.manBits (Variant.fixedWrites s.cfg .manPt)
  | manNewLens => exact newFrame_alike .manLens Config.manBits (Variant.fixedWrites s.cfg .manLens)
  | manNewAux => exact newFrame_alike .manAux Config.manBits (Variant.fixedWrites s.cfg .manAux)
  | manRecv r => exact onlyIn_rejectIf_commit_alike _ _ _ _
  | manPan v => exact onlyIn_rejectIf_commit_alike _ _ _ _
  | manTilt v => exact onlyIn_rejectIf_commit_alike _ _ _ _
  | manZoom v => exact manLens_alike _ v
  | manFocus v => exact manLens_alike _ v
  | manIris v => exact manLens_alike _ v
  | manAux ch => exact onlyIn_rejectIf_commit_alike _ _ _ _
  | vicNewStatus => exact newFrame_alike .vicStatus Config.vicStatusBits (Variant.fixedWrites s.cfg .vicStatus)
  | vicNewCmd => exact newFrame_alike .vicCmd _ _
  | vicNewSpeed => exact newFrame_alike .vicSpeed _ _
  | vicRecv r => exact onlyIn_rejectIf_commit_alike _ _ _ _
  | vicPan v => exact vicMove_alike _ _ _ _ v
  | vicTilt v => exact vicMove_alike _ _ _ _ v
  | vicZoom v => exact vicSet_alike _
  | vicIris v =>
    simp only [exec, execVicIris, State.withPort]
    cases s.cfg.irisPositive <;> exact vicSet_alike _
  | vicFocus v =>
    simp only [exec, execVicFocus, State.withPort]
    cases s.cfg.focusPositive <;> exact vicSet_alike _
  | vicAutoIris b => exact vicSet_alike _
  | vicAutoPan b => exact vicSet_alike _
  | vicLensSpeed b => exact vicSet_alike _
  | vicAux ch b => exact onlyIn_rejectIf_commit_alike _ _ _ _

/-- Alike answers, spelled out: the same next state and response, but for the port. -/
theorem AnswersAlike.exists_next (h : AnswersAlike s rs qs k k') : ∃ t r, k = .next t ∧
    t.responses = s.responses ++ [r] ∧ k' = .next { t with responses := rs ++ [r], requests := qs } := by
  obtain ⟨t, r, ht⟩ := h
  exact ⟨_, r, rfl, congrArg (· ++ [r]) ht, rfl⟩

end

/-! ### Each part of the invariant from its own premise -/

section
variable {s t : State}

theorem Effect.frameWf (h : Effect s (.next t)) (hs : s.frame.Wf) : t.frame.Wf := by
  cases h with
  | only r => exact hs
  | wrote hds fit => exact Frame.wf_writeAll hs
  | made hw fit => exact Frame.wf_writeAll Frame.wf_zeros

/-- Writes and new frames pass the span check, so neither reaches a bit at or above WIDTH (R43, R44). -/
theorem Effect.bits_above_width (h : Effect s (.next t)) (hs : ∀ i, s.width ≤ i → s.frame.bit i = false) (i : Nat)
    (hi : t.width ≤ i) : t.frame.bit i = false := by
  cases h with
  | only r => exact hs i hi
  | wrote hds fit => exact (Frame.bit_writeAll_above fit hi).trans (hs i hi)
  | made hw fit => exact (Frame.bit_writeAll_above fit hi).trans (Frame.bit_zeros i)

theorem Effect.syncSet (h : Effect s (.next t)) (hs : s.SyncSet) : t.SyncSet := by
  cases h with
  | only r => exact hs
  | wrote hds fit => exact hds.syncSet hs
  | made hw fit => exact Variant.sync_blank s.cfg

theorem Effect.pairsExclusive (h : Effect s (.next t)) (hs : s.PairsExclusive) : t.PairsExclusive := by
  cases h with
  | only r => exact hs
  | wrote hds fit => exact fun hv => hds.pairsExclusive hv (hs hv)
  | made hw fit => exact fun _ => blank_pairsExclusive s.cfg

end

/-! ### The statements -/

/-- Settles O14: the answers from two states that differ in the port alone are alike. -/
theorem responsesAreNeverRead : Obligations.ResponsesAreNeverRead :=
  fun i s rs qs => (exec_alike i s rs qs).exists_next

/-- Settles O56: a write keeps the rising order, and a new frame starts from no index at all. -/
theorem everyStepKeepsTheFrameCanonical : Obligations.EveryStepKeepsTheFrameCanonical := by
  intro s t hs h
  obtain ⟨rest, he⟩ := step_effect h
  exact he.frameWf hs

/-- Settles O57: the span check stands before every write. -/
theorem everyStepKeepsBitsWithinTheWidth : Obligations.EveryStepKeepsBitsWithinTheWidth := by
  intro s t hs h
  obtain ⟨rest, he⟩ := step_effect h
  exact he.bits_above_width hs

/-- Settles O58: no write to a codec frame covers bit 7, and every new codec frame is committed with it. -/
theorem everyStepKeepsTheSyncFlag : Obligations.EveryStepKeepsTheSyncFlag := by
  intro s t hs h
  obtain ⟨rest, he⟩ := step_effect h
  exact he.syncSet hs

/-- Settles O59: a directional setter clears its pair before it sets one flag, and nothing else writes the flags. -/
theorem everyStepKeepsThePairsExclusive : Obligations.EveryStepKeepsThePairsExclusive := by
  intro s t hs h
  obtain ⟨rest, he⟩ := step_effect h
  exact he.pairsExclusive hs

/-- Settles O53: `State.reset` and `State.resetBlock` put `Frame.zeros` in FRAME and leave CFG as it was. -/
theorem resetHoldsNoFrame : Obligations.ResetHoldsNoFrame :=
  ⟨rfl, rfl, Frame.bit_zeros, fun _ => ⟨rfl, rfl, Frame.bit_zeros, rfl⟩⟩

end Sys2Proof.Machine

/-! PROOFS of 30_encoding.md, the operation word (R74-R80): what each decoder form accepts, the encoding line of each of
the thirty opcodes (`EncodedAs`), and that decoder, encoder, opcode table and bytes agree. -/

namespace Sys2Proof

open Machine

/-! ### What each form accepts (R77, R78) -/

section
variable {w : OpWord} {i : Instr}

theorem ite_ok_eq_ok {ε α : Type} {p : Prop} [Decidable p] {x y : α} {e : ε} :
    (if p then .ok x else .error e : Except ε α) = .ok y ↔ p ∧ x = y := by
  by_cases h : p <;> simp [h]

/-- The two checks of a form with a one-bit operand: the unused fields, then the upper bits of `B`. -/
theorem bitChecks_eq_ok {p : Prop} [Decidable p] {e e' : DecodeError} {b : BitVec 8} {mk : Bool → Instr} :
    (if ¬ p then .error e else if ¬ b.extractLsb' 1 7 = 0 then .error e' else .ok (mk (b.getLsbD 0)) :
      Except DecodeError Instr) = .ok i ↔ ((b = 0 ∨ b = 1) ∧ p) ∧ mk (b = 1) = i := by
  have hbit : b = 0 ∨ b = 1 → b.getLsbD 0 = decide (b = 1) := by rintro (rfl | rfl) <;> rfl
  by_cases hp : p
  · rw [if_neg (not_not.mpr hp), ite_not, ite_ok_eq_ok, upperBits_eq_zero]
    simp only [hp, and_true]
    exact and_congr_right fun hb => by rw [hbit hb]
  · simp [hp]

theorem formNone_eq_ok {j : Instr} : formNone w j = .ok i ↔ (bOf w = 0 ∧ idxOf w = 0 ∧ valOf w = 0) ∧ j = i :=
  ite_ok_eq_ok

theorem formIdx_eq_ok {mk : Nat → Instr} :
    formIdx w mk = .ok i ↔ (bOf w = 0 ∧ valOf w = 0) ∧ mk (idxOf w).toNat = i := ite_ok_eq_ok

theorem formIdxBit_eq_ok {mk : Nat → Bool → Instr} :
    formIdxBit w mk = .ok i ↔ ((bOf w = 0 ∨ bOf w = 1) ∧ valOf w = 0) ∧ mk (idxOf w).toNat (bOf w = 1) = i :=
  bitChecks_eq_ok

theorem formIdxCountValue_eq_ok {mk : Nat → Nat → Nat → Instr} :
    formIdxCountValue w mk = .ok i ↔ True ∧ mk (idxOf w).toNat (bOf w).toNat (valOf w).toNat = i := by
  simp [formIdxCountValue, zext32]

theorem formVal_eq_ok {mk : Int → Instr} :
    formVal w mk = .ok i ↔ (bOf w = 0 ∧ idxOf w = 0) ∧ mk (valOf w).toInt = i := ite_ok_eq_ok

theorem formBit_eq_ok {mk : Bool → Instr} :
    formBit w mk = .ok i ↔ ((bOf w = 0 ∨ bOf w = 1) ∧ idxOf w = 0 ∧ valOf w = 0) ∧ mk (bOf w = 1) = i :=
  bitChecks_eq_ok

theorem formValBit_eq_ok {mk : Int → Bool → Instr} :
    formValBit w mk = .ok i ↔ ((bOf w = 0 ∨ bOf w = 1) ∧ idxOf w = 0) ∧ mk (valOf w).toInt (bOf w = 1) = i :=
  bitChecks_eq_ok

end

/-! ### The encoding line of each opcode (R77, R78, R185) -/

/-- A word that the decoder refuses is answered `IllegalOp(OP)` (R185). -/
theorem serve_of_not_decoded {w : OpWord} (h : ∀ i, decode w ≠ .ok i) (s : State) :
    serve w s = .next (s.answer (.error (.illegalOp (opOf w)))) := by
  unfold serve
  split
  · exact absurd ‹_› (h _)
  · rfl

/-- The encoding line of an opcode, from what the decoder accepts at it. -/
theorem encodedAs_of_decode {op : BitVec 8} {legal : BitVec 8 → BitVec 16 → BitVec 32 → Prop}
    {mk : BitVec 8 → BitVec 16 → BitVec 32 → Instr}
    (h : ∀ w, opOf w = op → ∀ i, decode w = .ok i ↔
      legal (bOf w) (idxOf w) (valOf w) ∧ mk (bOf w) (idxOf w) (valOf w) = i) : EncodedAs op legal mk :=
  fun b idx val => by
    have hw := h (packWord op b idx val) (opOf_packWord op b idx val)
    simp only [bOf_packWord, idxOf_packWord, valOf_packWord] at hw
    refine ⟨fun hl => (hw _).mpr ⟨hl, rfl⟩, fun hl s => ?_⟩
    rw [serve_of_not_decoded fun i hi => hl ((hw i).mp hi).1, opOf_packWord]

theorem encodedAs_bbNew : EncodedAs 0x01 (fun b _ val => b = 0 ∧ val = 0) (fun _ idx _ => .bbNew idx.toNat) :=
  encodedAs_of_decode fun w hw _ => by rw [decode, hw]; exact formIdx_eq_ok
theorem encodedAs_bbGet : EncodedAs 0x02 (fun b _ val => b = 0 ∧ val = 0) (fun _ idx _ => .bbGet idx.toNat) :=
  encodedAs_of_decode fun w hw _ => by rw [decode, hw]; exact formIdx_eq_ok
theorem encodedAs_bbSet : EncodedAs 0x03 (fun b _ val => (b = 0 ∨ b = 1) ∧ val = 0)
    (fun b idx _ => .bbSet idx.toNat (b = 1)) :=
  encodedAs_of_decode fun w hw _ => by rw [decode, hw]; exact formIdxBit_eq_ok
theorem encodedAs_bbWrf : EncodedAs 0x04 (fun _ _ _ => True) (fun b idx val => .bbWrf idx.toNat b.toNat val.toNat) :=
  encodedAs_of_decode fun w hw _ => by rw [decode, hw]; exact formIdxCountValue_eq_ok
theorem encodedAs_bbOctets : EncodedAlone 0x05 .bbOctets :=
  encodedAs_of_decode fun w hw _ => by rw [decode, hw]; exact formNone_eq_ok
theorem encodedAs_frameDiscard : EncodedAlone 0x06 .frameDiscard :=
  encodedAs_of_decode fun w hw _ => by rw [decode, hw]; exact formNone_eq_ok
theorem encodedAs_frameInfo : EncodedAlone 0x07 .frameInfo :=
  encodedAs_of_decode fun w hw _ => by rw [decode, hw]; exact formNone_eq_ok
theorem encodedAs_manNewPt : EncodedAlone 0x10 .manNewPt :=
  encodedAs_of_decode fun w hw _ => by rw [decode, hw]; exact formNone_eq_ok
theorem encodedAs_manNewLens : EncodedAlone 0x11 .manNewLens :=
  encodedAs_of_decode fun w hw _ => by rw [decode, hw]; exact formNone_eq_ok
theorem encodedAs_manNewAux : EncodedAlone 0x12 .manNewAux :=
  encodedAs_of_decode fun w hw _ => by rw [decode, hw]; exact formNone_eq_ok
theorem encodedAs_manRecv : EncodedSigned 0x13 .manRecv :=
  encodedAs_of_decode fun w hw _ => by rw [decode, hw]; exact formVal_eq_ok
theorem encodedAs_manPan : EncodedSigned 0x14 .manPan :=
  encodedAs_of_decode fun w hw _ => by rw [decode, hw]; exact formVal_eq_ok
theorem encodedAs_manTilt : EncodedSigned 0x15 .manTilt :=
  encodedAs_of_decode fun w hw _ => by rw [decode, hw]; exact formVal_eq_ok
theorem encodedAs_manZoom : EncodedSigned 0x16 .manZoom :=
  encodedAs_of_decode fun w hw _ => by rw [decode, hw]; exact formVal_eq_ok
theorem encodedAs_manFocus : EncodedSigned 0x17 .manFocus :=
  encodedAs_of_decode fun w hw _ => by rw [decode, hw]; exact formVal_eq_ok
theorem encodedAs_manIris : EncodedSigned 0x18 .manIris :=
  encodedAs_of_decode fun w hw _ => by rw [decode, hw]; exact formVal_eq_ok
theorem encodedAs_manAux : EncodedSigned 0x19 .manAux :=
  encodedAs_of_decode fun w hw _ => by rw [decode, hw]; exact formVal_eq_ok
theorem encodedAs_vicNewStatus : EncodedAlone 0x20 .vicNewStatus :=
  encodedAs_of_decode fun w hw _ => by rw [decode, hw]; exact formNone_eq_ok
theorem encodedAs_vicNewCmd : EncodedAlone 0x21 .vicNewCmd :=
  encodedAs_of_decode fun w hw _ => by rw [decode, hw]; exact formNone_eq_ok
theorem encodedAs_vicNewSpeed : EncodedAlone 0x22 .vicNewSpeed :=
  encodedAs_of_decode fun w hw _ => by rw [decode, hw]; exact formNone_eq_ok
theorem encodedAs_vicRecv : EncodedSigned 0x23 .vicRecv :=
  encodedAs_of_decode fun w hw _ => by rw [decode, hw]; exact formVal_eq_ok
theorem encodedAs_vicPan : EncodedSigned 0x24 .vicPan :=
  encodedAs_of_decode fun w hw _ => by rw [decode, hw]; exact formVal_eq_ok
theorem encodedAs_vicTilt : EncodedSigned 0x25 .vicTilt :=
  encodedAs_of_decode fun w hw _ => by rw [decode, hw]; exact formVal_eq_ok
theorem encodedAs_vicZoom : EncodedSigned 0x26 .vicZoom :=
  encodedAs_of_decode fun w hw _ => by rw [decode, hw]; exact formVal_eq_ok
theorem encodedAs_vicIris : EncodedSigned 0x27 .vicIris :=
  encodedAs_of_decode fun w hw _ => by rw [decode, hw]; exact formVal_eq_ok
theorem encodedAs_vicFocus : EncodedSigned 0x28 .vicFocus :=
  encodedAs_of_decode fun w hw _ => by rw [decode, hw]; exact formVal_eq_ok
theorem encodedAs_vicAutoIris : EncodedBit 0x29 .vicAutoIris :=
  encodedAs_of_decode fun w hw _ => by rw [decode, hw]; exact formBit_eq_ok
theorem encodedAs_vicAutoPan : EncodedBit 0x2A .vicAutoPan :=
  encodedAs_of_decode fun w hw _ => by rw [decode, hw]; exact formBit_eq_ok
theorem encodedAs_vicLensSpeed : EncodedBit 0x2B .vicLensSpeed :=
  encodedAs_of_decode fun w hw _ => by rw [decode, hw]; exact formBit_eq_ok
theorem encodedAs_vicAux : EncodedAs 0x2C (fun b idx _ => (b = 0 ∨ b = 1) ∧ idx = 0)
    (fun b _ val => .vicAux val.toInt (b = 1)) :=
  encodedAs_of_decode fun w hw _ => by rw [decode, hw]; exact formValBit_eq_ok

/-! ### Decoder and encoder agree (R74-R77, R81) -/

theorem fitsIdx_toNat (x : BitVec 16) : fitsIdx x.toNat = true := by simpa [fitsIdx] using Nat.le_of_lt_succ x.isLt

theorem fitsCount_toNat (x : BitVec 8) : fitsCount x.toNat = true := by simpa [fitsCount] using Nat.le_of_lt_succ x.isLt

theorem fitsUnsigned_toNat (x : BitVec 32) : fitsUnsigned x.toNat = true := by
  simpa [fitsUnsigned] using Nat.le_of_lt_succ x.isLt

theorem toNat_ofNat_of_fitsIdx {n : Nat} (h : fitsIdx n = true) : (BitVec.ofNat 16 n).toNat = n :=
  Nat.mod_eq_of_lt (Nat.lt_succ_of_le (by simpa [fitsIdx] using h))

theorem toNat_ofNat_of_fitsCount {n : Nat} (h : fitsCount n = true) : (BitVec.ofNat 8 n).toNat = n :=
  Nat.mod_eq_of_lt (Nat.lt_succ_of_le (by simpa [fitsCount] using h))

theorem toNat_ofNat_of_fitsUnsigned {n : Nat} (h : fitsUnsigned n = true) : (BitVec.ofNat 32 n).toNat = n :=
  Nat.mod_eq_of_lt (Nat.lt_succ_of_le (by simpa [fitsUnsigned] using h))

theorem toInt_ofInt_of_fitsSigned {v : Int} (h : fitsSigned v = true) : (BitVec.ofInt 32 v).toInt = v := sext32_ofInt h

theorem bitField_legal (b : Bool) : bitField b = 0 ∨ bitField b = 1 := by cases b <;> decide

theorem bitField_eq_one (b : Bool) : decide (bitField b = 1) = b := by cases b <;> decide

/-- Settles O1: each form reads back the fields the encoder packs. -/
theorem decodeOfEncode : Obligations.DecodeOfEncode := by
  intro i h
  cases i with
  | bbOctets | frameDiscard | frameInfo | manNewPt | manNewLens | manNewAux | vicNewStatus | vicNewCmd | vicNewSpeed =>
    rw [encode, decode, opOf_packWord]
    exact formNone_eq_ok.mpr (by simp)
  | bbNew n | bbGet n =>
    rw [encode, decode, opOf_packWord]
    refine formIdx_eq_ok.mpr ⟨by simp, ?_⟩
    rw [idxOf_packWord, toNat_ofNat_of_fitsIdx h]
  | bbSet n b =>
    rw [encode, decode, opOf_packWord]
    refine formIdxBit_eq_ok.mpr ⟨⟨by rw [bOf_packWord]; exact bitField_legal b, by simp⟩, ?_⟩
    rw [idxOf_packWord, bOf_packWord, toNat_ofNat_of_fitsIdx h, bitField_eq_one]
  | bbWrf first count value =>
    simp only [Instr.wf, Bool.and_eq_true] at h
    obtain ⟨⟨hfirst, hcount⟩, hvalue⟩ := h
    rw [encode, decode, opOf_packWord]
    refine formIdxCountValue_eq_ok.mpr ⟨trivial, ?_⟩
    rw [idxOf_packWord, bOf_packWord, valOf_packWord, toNat_ofNat_of_fitsIdx hfirst, toNat_ofNat_of_fitsCount hcount,
      toNat_ofNat_of_fitsUnsigned hvalue]
  | manRecv v | manPan v | manTilt v | manZoom v | manFocus v | manIris v | manAux v | vicRecv v | vicPan v
  | vicTilt v | vicZoom v | vicIris v | vicFocus v =>
    rw [encode, decode, opOf_packWord]
    refine formVal_eq_ok.mpr ⟨by simp, ?_⟩
    rw [valOf_packWord, toInt_ofInt_of_fitsSigned h]
  | vicAutoIris b | vicAutoPan b | vicLensSpeed b =>
    rw [encode, decode, opOf_packWord]
    refine formBit_eq_ok.mpr ⟨⟨by rw [bOf_packWord]; exact bitField_legal b, by simp⟩, ?_⟩
    rw [bOf_packWord, bitField_eq_one]
  | vicAux ch b =>
    rw [encode, decode, opOf_packWord]
    refine formValBit_eq_ok.mpr ⟨⟨by rw [bOf_packWord]; exact bitField_legal b, by simp⟩, ?_⟩
    rw [valOf_packWord, bOf_packWord, toInt_ofInt_of_fitsSigned h, bitField_eq_one]

theorem bitField_of_legal {b : BitVec 8} (h : b = 0 ∨ b = 1) : bitField (b = 1) = b := by
  rcases h with rfl | rfl <;> rfl

/-- A word is the packing of what its four fields are known to hold (R74). -/
theorem packWord_eq {w : OpWord} {op b : BitVec 8} {idx : BitVec 16} {val : BitVec 32} (hop : (opOf w).toNat = op.toNat)
    (hb : bOf w = b) (hidx : idxOf w = idx) (hval : valOf w = val) : packWord op b idx val = w := by
  subst hb hidx hval
  rw [← BitVec.eq_of_toNat_eq hop, packWord_fields]

/-- Settles O2: a word that a form accepts holds 0 in the fields the form does not use. -/
theorem encodeOfDecode : Obligations.EncodeOfDecode := by
  intro w i h
  unfold decode at h
  split at h
  -- The arms of `decode`, `h_1` to `h_30` in R77's order and `h_31` for the reserved opcodes, taken form by form.
  case h_5 hop | h_6 hop | h_7 hop | h_8 hop | h_9 hop | h_10 hop | h_18 hop | h_19 hop | h_20 hop =>
    obtain ⟨⟨hb, hidx, hval⟩, rfl⟩ := formNone_eq_ok.mp h
    exact ⟨packWord_eq hop hb hidx hval, rfl⟩
  case h_1 hop | h_2 hop =>
    obtain ⟨⟨hb, hval⟩, rfl⟩ := formIdx_eq_ok.mp h
    exact ⟨packWord_eq hop hb (by simp) hval, fitsIdx_toNat _⟩
  case h_3 hop =>
    obtain ⟨⟨hb, hval⟩, rfl⟩ := formIdxBit_eq_ok.mp h
    exact ⟨packWord_eq hop (bitField_of_legal hb).symm (by simp) hval, fitsIdx_toNat _⟩
  case h_4 hop =>
    obtain ⟨-, rfl⟩ := formIdxCountValue_eq_ok.mp h
    exact ⟨packWord_eq hop (by simp) (by simp) (by simp),
      by simp [Instr.wf, fitsIdx_toNat, fitsCount_toNat, fitsUnsigned_toNat]⟩
  case h_11 hop | h_12 hop | h_13 hop | h_14 hop | h_15 hop | h_16 hop | h_17 hop | h_21 hop | h_22 hop | h_23 hop
      | h_24 hop | h_25 hop | h_26 hop =>
    obtain ⟨⟨hb, hidx⟩, rfl⟩ := formVal_eq_ok.mp h
    exact ⟨packWord_eq hop hb hidx BitVec.ofInt_toInt.symm, fitsSigned_sext32 _⟩
  case h_27 hop | h_28 hop | h_29 hop =>
    obtain ⟨⟨hb, hidx, hval⟩, rfl⟩ := formBit_eq_ok.mp h
    exact ⟨packWord_eq hop (bitField_of_legal hb).symm hidx hval, rfl⟩
  case h_30 hop =>
    obtain ⟨⟨hb, hidx⟩, rfl⟩ := formValBit_eq_ok.mp h
    exact ⟨packWord_eq hop (bitField_of_legal hb).symm hidx BitVec.ofInt_toInt.symm, fitsSigned_sext32 _⟩
  case h_31 => cases h

/-! ### The opcode table (R78) -/

section
variable {w : OpWord} {op : BitVec 8} {legal : BitVec 8 → BitVec 16 → BitVec 32 → Prop}
  {mk : BitVec 8 → BitVec 16 → BitVec 32 → Instr} {m : String}

/-- If `w` matches the row, it decodes to an operation of the row's name. -/
abbrev RowDecodes (w : OpWord) (r : OpcodeRow) : Prop :=
  w &&& r.mask = r.matchWord → ∃ i, decode w = .ok i ∧ i.mnemonic = r.mnemonic

/-- A row whose mask leaves free, field by field, what its operation's fields admit. -/
theorem Machine.EncodedAs.rowDecodes (h : EncodedAs op legal mk) {mask matchWord : OpWord} (mb : BitVec 8)
    (mi : BitVec 16) (mv : BitVec 32) (hmask : mask = packWord 0xFF mb mi mv) (hmatch : matchWord = packWord op 0 0 0)
    (hlegal : ∀ b idx val, b &&& mb = 0 → idx &&& mi = 0 → val &&& mv = 0 → legal b idx val)
    (hm : ∀ b idx val, (mk b idx val).mnemonic = m) : RowDecodes w ⟨m, mask, matchWord⟩ := by
  intro hw
  rw [← packWord_fields w, hmask, hmatch, packWord_and] at hw
  obtain ⟨hop, hb, hidx, hval⟩ := packWord_inj hw
  have hop : opOf w = op := BitVec.and_allOnes.symm.trans hop
  have hdec := (h (bOf w) (idxOf w) (valOf w)).1 (hlegal _ _ _ hb hidx hval)
  rw [packWord_eq (by rw [hop]) rfl rfl rfl] at hdec
  exact ⟨_, hdec, hm _ _ _⟩

theorem eq_zero_of_and_allOnes {n : Nat} {x : BitVec n} (h : x &&& BitVec.allOnes n = 0) : x = 0 :=
  BitVec.and_allOnes.symm.trans h

/-- The mask of `B` for a one-bit operand leaves `B[0]` free (R76). -/
theorem legal_of_and_upperBits : ∀ b : BitVec 8, b &&& 0xFE = 0 → b = 0 ∨ b = 1 := by decide

theorem Machine.EncodedAlone.rowDecodes {i : Instr} (h : EncodedAlone op i) {matchWord : OpWord}
    (hmatch : matchWord = packWord op 0 0 0) : RowDecodes w ⟨i.mnemonic, 0xFFFFFFFFFFFFFFFF, matchWord⟩ :=
  EncodedAs.rowDecodes h 0xFF 0xFFFF 0xFFFFFFFF (by decide) hmatch
    (fun _ _ _ hb hidx hval =>
      ⟨eq_zero_of_and_allOnes hb, eq_zero_of_and_allOnes hidx, eq_zero_of_and_allOnes hval⟩) fun _ _ _ => rfl

theorem Machine.EncodedSigned.rowDecodes {mk : Int → Instr} (h : EncodedSigned op mk) {matchWord : OpWord}
    (hmatch : matchWord = packWord op 0 0 0) (hm : ∀ v, (mk v).mnemonic = m) :
    RowDecodes w ⟨m, 0x00000000FFFFFFFF, matchWord⟩ :=
  EncodedAs.rowDecodes h 0xFF 0xFFFF 0 (by decide) hmatch
    (fun _ _ _ hb hidx _ => ⟨eq_zero_of_and_allOnes hb, eq_zero_of_and_allOnes hidx⟩) fun _ _ _ => hm _

theorem Machine.EncodedBit.rowDecodes {mk : Bool → Instr} (h : EncodedBit op mk) {matchWord : OpWord}
    (hmatch : matchWord = packWord op 0 0 0) (hm : ∀ b, (mk b).mnemonic = m) :
    RowDecodes w ⟨m, 0xFFFFFFFFFFFFFEFF, matchWord⟩ :=
  EncodedAs.rowDecodes h 0xFE 0xFFFF 0xFFFFFFFF (by decide) hmatch
    (fun _ _ _ hb hidx hval =>
      ⟨legal_of_and_upperBits _ hb, eq_zero_of_and_allOnes hidx, eq_zero_of_and_allOnes hval⟩) fun _ _ _ => hm _

end

/-- A word that matches a row decodes to an operation of the row's name (R78). -/
theorem rowDecodes_of_mem (w : OpWord) : ∀ r ∈ opcodeTable, RowDecodes w r := by
  have idx : ∀ b idx val, b &&& (0xFF : BitVec 8) = 0 → idx &&& (0 : BitVec 16) = 0 →
      val &&& (0xFFFFFFFF : BitVec 32) = 0 → b = 0 ∧ val = 0 :=
    fun _ _ _ hb _ hval => ⟨eq_zero_of_and_allOnes hb, eq_zero_of_and_allOnes hval⟩
  simp only [opcodeTable, List.forall_mem_cons]
  exact ⟨
    encodedAs_bbNew.rowDecodes 0xFF 0 0xFFFFFFFF (by decide) (by decide) idx fun _ _ _ => rfl,
    encodedAs_bbGet.rowDecodes 0xFF 0 0xFFFFFFFF (by decide) (by decide) idx fun _ _ _ => rfl,
    encodedAs_bbSet.rowDecodes 0xFE 0 0xFFFFFFFF (by decide) (by decide)
      (fun _ _ _ hb _ hval => ⟨legal_of_and_upperBits _ hb, eq_zero_of_and_allOnes hval⟩) fun _ _ _ => rfl,
    encodedAs_bbWrf.rowDecodes 0 0 0 (by decide) (by decide) (fun _ _ _ _ _ _ => trivial) fun _ _ _ => rfl,
    encodedAs_bbOctets.rowDecodes (by decide),
    encodedAs_frameDiscard.rowDecodes (by decide),
    encodedAs_frameInfo.rowDecodes (by decide),
    encodedAs_manNewPt.rowDecodes (by decide),
    encodedAs_manNewLens.rowDecodes (by decide),
    encodedAs_manNewAux.rowDecodes (by decide),
    encodedAs_manRecv.rowDecodes (by decide) fun _ => rfl,
    encodedAs_manPan.rowDecodes (by decide) fun _ => rfl,
    encodedAs_manTilt.rowDecodes (by decide) fun _ => rfl,
    encodedAs_manZoom.rowDecodes (by decide) fun _ => rfl,
    encodedAs_manFocus.rowDecodes (by decide) fun _ => rfl,
    encodedAs_manIris.rowDecodes (by decide) fun _ => rfl,
    encodedAs_manAux.rowDecodes (by decide) fun _ => rfl,
    encodedAs_vicNewStatus.rowDecodes (by decide),
    encodedAs_vicNewCmd.rowDecodes (by decide),
    encodedAs_vicNewSpeed.rowDecodes (by decide),
    encodedAs_vicRecv.rowDecodes (by decide) fun _ => rfl,
    encodedAs_vicPan.rowDecodes (by decide) fun _ => rfl,
    encodedAs_vicTilt.rowDecodes (by decide) fun _ => rfl,
    encodedAs_vicZoom.rowDecodes (by decide) fun _ => rfl,
    encodedAs_vicIris.rowDecodes (by decide) fun _ => rfl,
    encodedAs_vicFocus.rowDecodes (by decide) fun _ => rfl,
    encodedAs_vicAutoIris.rowDecodes (by decide) fun _ => rfl,
    encodedAs_vicAutoPan.rowDecodes (by decide) fun _ => rfl,
    encodedAs_vicLensSpeed.rowDecodes (by decide) fun _ => rfl,
    encodedAs_vicAux.rowDecodes 0xFE 0xFFFF 0 (by decide) (by decide)
      (fun _ _ _ hb hidx _ => ⟨legal_of_and_upperBits _ hb, eq_zero_of_and_allOnes hidx⟩) fun _ _ _ => rfl,
    fun _ hr => absurd hr List.not_mem_nil⟩

/-- The word of every operation matches its row of the table (R78). -/
theorem encodedRow (i : Instr) : Laws.EncodedRow.Statement i := by
  open Laws.EncodedRow in
  cases i with
  | bbNew n => exact bbNew n
  | bbGet i => exact bbGet i
  | bbSet i b => exact bbSet i b
  | bbWrf first count value => exact bbWrf first count value
  | bbOctets => exact bbOctets
  | frameDiscard => exact frameDiscard
  | frameInfo => exact frameInfo
  | manNewPt => exact manNewPt
  | manNewLens => exact manNewLens
  | manNewAux => exact manNewAux
  | manRecv v => exact manRecv v
  | manPan v => exact manPan v
  | manTilt v => exact manTilt v
  | manZoom v => exact manZoom v
  | manFocus v => exact manFocus v
  | manIris v => exact manIris v
  | manAux v => exact manAux v
  | vicNewStatus => exact vicNewStatus
  | vicNewCmd => exact vicNewCmd
  | vicNewSpeed => exact vicNewSpeed
  | vicRecv v => exact vicRecv v
  | vicPan v => exact vicPan v
  | vicTilt v => exact vicTilt v
  | vicZoom v => exact vicZoom v
  | vicIris v => exact vicIris v
  | vicFocus v => exact vicFocus v
  | vicAutoIris b => exact vicAutoIris b
  | vicAutoPan b => exact vicAutoPan b
  | vicLensSpeed b => exact vicLensSpeed b
  | vicAux ch b => exact vicAux ch b

/-- Settles O3: the rows' masks leave free what the forms admit, and the encoder puts each operation in its row. -/
theorem legalExactlyAtTableRows : Obligations.LegalExactlyAtTableRows := by
  intro w
  refine ⟨rowDecodes_of_mem w, fun hno s => serve_of_not_decoded (fun i hi => ?_) s⟩
  obtain ⟨r, hr, -, hmatch⟩ := encodedRow i
  rw [(encodeOfDecode w i hi).1] at hmatch
  exact hno r hr hmatch

/-- Settles O4: the decoder evaluated at nine words. -/
theorem knownWordsDecode : Obligations.KnownWordsDecode := by
  refine ⟨?_, ?_, ?_, ?_, ?_, ?_, ?_, ?_, ?_⟩ <;> decide

/-! ### The word as bytes (R74, R80) -/

/-- The eight bytes of a word, put together again byte 0 lowest, are the word (R74). -/
theorem word_of_bytes (w : OpWord) :
    w.extractLsb' 56 8 ++ w.extractLsb' 48 8 ++ w.extractLsb' 40 8 ++ w.extractLsb' 32 8 ++ w.extractLsb' 24 8 ++
      w.extractLsb' 16 8 ++ w.extractLsb' 8 8 ++ w.extractLsb' 0 8 = w := by
  have join (n k m : Nat) : w.extractLsb' (k + m) n ++ w.extractLsb' k m = w.extractLsb' k (n + m) :=
    BitVec.extractLsb'_append_extractLsb'_eq_extractLsb' rfl
  rw [join 8 48 8, join 16 40 8, join 24 32 8, join 32 24 8, join 40 16 8, join 48 8 8, join 56 0 8]
  exact BitVec.extractLsb'_eq_self

/-- Byte `k` is the eight bits of the word from `8k` on (R74). -/
theorem bytesOfWord_eq_map (w : OpWord) : bytesOfWord w = (List.range 8).map fun k => w.extractLsb' (8 * k) 8 := rfl

/-- Eight bytes are one word, and the bytes after them are left over (R80). -/
theorem decodeBytes_bytesOfWord (w : OpWord) (rest : List Byte) :
    decodeBytes (bytesOfWord w ++ rest) = (decode w).map fun i => (i, rest) := by
  simp only [bytesOfWord, List.cons_append, List.nil_append, decodeBytes, word_of_bytes]
  cases decode w <;> rfl

/-- Fewer than eight bytes are no word (log entry 12). -/
theorem decodeBytes_of_length_lt {bs : List Byte} (h : bs.length < 8) :
    decodeBytes bs = .error (.tooFewBytes bs.length) := by
  unfold decodeBytes
  split
  · simp only [List.length_cons] at h
    omega
  · rfl

/-- Settles O5: the bytes are the word cut at every eighth bit. -/
theorem bytesCarryTheWord : Obligations.BytesCarryTheWord := by
  refine ⟨decodeBytes_bytesOfWord, fun w => ⟨rfl, fun k h j hj => ?_⟩, fun _ => decodeBytes_of_length_lt⟩
  simp [bytesOfWord_eq_map, hj]

end Sys2Proof

/-! PROOFS of 30_encoding.md, the frame formats (R62, R67, R72): the receivers read back, and the byte maps. An octet is
a field of eight bits (R45), which is cut where the fields of the format end; the unused pieces are 0. -/

namespace Sys2Proof.Machine

/-! ### The receivers taken apart (R62, R72) -/

theorem shiftLeft_or_eq {a b n : Nat} (h : b < 2 ^ n) : a <<< n ||| b = 2 ^ n * a + b := by
  rw [← Nat.shiftLeft_add_eq_or_of_lt h, Nat.shiftLeft_eq, Nat.mul_comm]

/-- The pieces of a Manchester receiver do not overlap (R62). -/
theorem manReceiver_eq (f : Frame) :
    manReceiver f = 64 * f.field 0 2 + 32 * f.field 8 1 + f.field 18 5 + 1 := by
  have hRM : f.field 8 1 <<< 5 < 2 ^ 6 := by have := f.field_lt 8 1; rw [Nat.shiftLeft_eq]; omega
  have hsum : 2 ^ 6 * f.field 0 2 + f.field 8 1 <<< 5 = (2 * f.field 0 2 + f.field 8 1) <<< 5 := by
    simp only [Nat.shiftLeft_eq]; omega
  rw [manReceiver, shiftLeft_or_eq hRM, hsum, shiftLeft_or_eq (f.field_lt 18 5)]
  omega

/-- The pieces of what a Manchester decoder recovers, less 1, are the fields it read (R62). -/
theorem manReceiver_pieces (f : Frame) : (manReceiver f - 1) >>> 6 = f.field 0 2 ∧
    ((manReceiver f - 1) >>> 5) &&& 1 = f.field 8 1 ∧ (manReceiver f - 1) &&& 0x1F = f.field 18 5 := by
  have hRM := f.field_lt 8 1
  have hRL := f.field_lt 18 5
  rw [manReceiver_eq, Nat.add_sub_cancel, Nat.shiftRight_eq_div_pow, Nat.shiftRight_eq_div_pow, Nat.and_one_is_mod,
    Nat.and_two_pow_sub_one_eq_mod _ 5]
  omega

/-- The nibbles of a Vicon receiver are the fields it was read from (R72). -/
theorem vicReceiver_nibbles (f : Frame) :
    vicReceiver f >>> 4 = f.field 0 4 ∧ vicReceiver f &&& 0xF = f.field 8 4 := by
  have hRLN := f.field_lt 8 4
  rw [vicReceiver, shiftLeft_or_eq hRLN, Nat.shiftRight_eq_div_pow, Nat.and_two_pow_sub_one_eq_mod _ 4]
  omega

/-! ### `MAN.RECV` and the decoder (R62, R123) -/

/-- A field that a write does not touch is left alone. -/
theorem Frame.field_write_of_disjoint (f : Frame) (d : Descriptor) {first count : Nat}
    (h : d.first + d.count ≤ first ∨ first + count ≤ d.first) :
    (f.write d).field first count = f.field first count :=
  Frame.field_congr fun j hj => by rw [Frame.bit_write, if_neg (by omega)]

/-- The pieces of `z` read back from a frame they were just written to (R62). -/
theorem Frame.fields_writeAll_manReceiver (f : Frame) {z : Nat} (hz : z < 256) :
    (f.writeAll (manReceiverFields z)).field 0 2 = z >>> 6 ∧
      (f.writeAll (manReceiverFields z)).field 8 1 = (z >>> 5) &&& 1 ∧
        (f.writeAll (manReceiverFields z)).field 18 5 = z &&& 0x1F := by
  simp only [manReceiverFields, Frame.writeAll_cons, Frame.writeAll_nil]
  refine ⟨?_, ?_, ?_⟩
  · rw [Frame.field_write_of_disjoint _ _ (by simp), Frame.field_write_of_disjoint _ _ (by simp)]
    have hRH : z >>> 6 < 2 ^ 2 := by rw [Nat.shiftRight_eq_div_pow]; omega
    exact (Frame.field_write_same _ ⟨0, 2, _⟩).trans (Nat.mod_eq_of_lt hRH)
  · rw [Frame.field_write_of_disjoint _ _ (by simp)]
    exact (Frame.field_write_same _ ⟨8, 1, _⟩).trans (Nat.mod_eq_of_lt (Nat.lt_succ_of_le Nat.and_le_right))
  · exact (Frame.field_write_same _ ⟨18, 5, _⟩).trans (Nat.mod_eq_of_lt (Nat.lt_succ_of_le Nat.and_le_right))

theorem width_of_isManchester {s : State} (hv : s.variant.isManchester = true) (hw : s.WidthOk) : s.width = 24 := by
  unfold State.WidthOk at hw
  revert hv hw
  cases s.variant <;> simp [Variant.isManchester, Cfg.frameWidth, eq_comm]

theorem mem_of_isManchester : ∀ {v : Variant}, v.isManchester = true → v ∈ [Variant.manPt, .manLens, .manAux]
  | .manPt, _ | .manLens, _ | .manAux, _ => by decide

/-- `MAN.RECV r` with `r` in 1..255 commits the pieces of `r - 1` (R123). -/
theorem exec_manRecv {s : State} {r : Nat} (hv : s.variant.isManchester = true) (hw : s.WidthOk) (h1 : 1 ≤ r)
    (h255 : r ≤ 255) : exec (.manRecv r) s =
      .next ((s.withFrame (s.frame.writeAll (manReceiverFields (r - 1)))).answer (.ok .empty)) := by
  have hbad : badReceiver r = false := by simp only [badReceiver, decide_eq_false_iff_not]; omega
  have hfit : firstUnfit s.width (manReceiverFields (r - 1)) = none := by rw [width_of_isManchester hv hw]; rfl
  rw [exec, execManRecv, onlyIn_of_mem (mem_of_isManchester hv), hbad, rejectIf_false,
    show ((r : Int) - 1).toNat = r - 1 by omega, commit_of_fits hfit]

/-- Settles O38: each piece of `r - 1` fits its field, and the pieces add up to it. -/
theorem manchesterReceiverRoundTrip : Obligations.ManchesterReceiverRoundTrip := by
  intro r s hv hw h1 h255
  obtain ⟨hRH, hRM, hRL⟩ := s.frame.fields_writeAll_manReceiver (z := r - 1) (by omega)
  refine ⟨_, exec_manRecv hv hw h1 h255, hRH, hRM, hRL, ?_⟩
  rw [State.answer_frame, State.withFrame_frame, manReceiver_eq, hRH, hRM, hRL, Nat.shiftRight_eq_div_pow,
    Nat.shiftRight_eq_div_pow, Nat.and_one_is_mod, Nat.and_two_pow_sub_one_eq_mod _ 5]
  omega

/-! ### Fields next to each other -/

/-- A field cut in two (R42). -/
theorem Frame.field_add (f : Frame) (first a b : Nat) :
    f.field first (a + b) = f.field first a ||| (f.field (first + a) b <<< a) := by
  refine Nat.eq_of_testBit_eq fun j => ?_
  rw [Nat.testBit_or, Nat.testBit_shiftLeft, (f.testBit_field _ _ _).1, (f.testBit_field _ _ _).1,
    (f.testBit_field _ _ _).1]
  by_cases h : j < a
  · simp [h, show j < a + b by omega, show ¬ a ≤ j by omega]
  · simp [h, show a ≤ j by omega, show j - a < b ↔ j < a + b by omega,
      show first + a + (j - a) = first + j by omega]

/-- Eight bits one by one. -/
theorem Frame.field_eight (f : Frame) (first : Nat) : f.field first 8 =
    f.field first 1 ||| (f.field (first + 1) 1 <<< 1) ||| (f.field (first + 2) 1 <<< 2) |||
      (f.field (first + 3) 1 <<< 3) ||| (f.field (first + 4) 1 <<< 4) ||| (f.field (first + 5) 1 <<< 5) |||
      (f.field (first + 6) 1 <<< 6) ||| (f.field (first + 7) 1 <<< 7) := by
  rw [f.field_add first 7 1, f.field_add first 6 1, f.field_add first 5 1, f.field_add first 4 1, f.field_add first 3 1,
    f.field_add first 2 1, f.field_add first 1 1]

theorem Frame.field_one (f : Frame) (i : Nat) : f.field i 1 = (f.bit i).toNat := by
  cases h : f.bit i <;> simp [Frame.field, h]

/-! ### The bytes of a frame with nothing above its width (R23, R45) -/

/-- With no bit at or above WIDTH, an octet is the eight bits of FRAME as they stand. -/
theorem octet_eq_field {s : State} (h : s.BitsWithin) (k : Nat) :
    octet s k = BitVec.ofNat 8 (s.frame.field (8 * k) 8) := by
  refine BitVec.eq_of_getLsbD_eq fun j hj => ?_
  have hbit : s.frame.bit (8 * k + j) = true → 8 * k + j < s.width := fun hb => h _ (Frame.mem_ones.mpr hb)
  rw [getLsbD_octet s k j hj, BitVec.getLsbD_ofNat, (s.frame.testBit_field _ _ _).1]
  simpa [hj] using hbit

/-- A field of unused bits is 0 (R61, R68-R70). -/
theorem field_eq_zero_of_unused {s : State} (h : s.UnusedZero) (first count : Nat)
    (hu : ∀ i, first ≤ i → i < first + count → s.variant.unusedBit i = true) :
    s.frame.field first count = 0 := by
  refine Frame.field_eq_zero fun j hj => Bool.eq_false_iff.mpr fun hb => ?_
  have := h _ (Frame.mem_ones.mpr hb)
  rw [hu _ (by omega) (by omega)] at this
  cases this

theorem sync_field {s : State} (h : s.SyncSet) (hv : s.variant.isCodec = true) : s.frame.field 7 1 <<< 7 = 0x80 := by
  rw [Frame.field_one, h hv]; rfl

/-! ### The Manchester byte map (R67) -/

theorem unusedBit_of_isManchester : ∀ {v : Variant}, v.isManchester = true → ∀ {k : Nat},
    (2 ≤ k ∧ k ≤ 6) ∨ (14 ≤ k ∧ k ≤ 16) ∨ 23 ≤ k → v.unusedBit k = true
  | .manPt, _, _, hk | .manLens, _, _, hk | .manAux, _, _, hk => decide_eq_true hk

/-- Settles O39: each octet is its fields side by side, the unused ones 0 and the sync flag 1. -/
theorem manchesterByteMap : Obligations.ManchesterByteMap := by
  intro s hs hv
  obtain ⟨-, -, hwidth, -, hwithin, hsync, -, hunused, -, -⟩ := hs
  have hoctets : octets s = [octet s 0, octet s 1, octet s 2] := by rw [octets, width_of_isManchester hv hwidth]; rfl
  obtain ⟨hRH, hRM, hRL⟩ := manReceiver_pieces s.frame
  have hflag := sync_field hsync (by simp [Variant.isCodec, hv])
  have unused : ∀ first count, (∀ i, first ≤ i → i < first + count → (2 ≤ i ∧ i ≤ 6) ∨ (14 ≤ i ∧ i ≤ 16) ∨ 23 ≤ i) →
      s.frame.field first count = 0 := fun first count hi =>
    field_eq_zero_of_unused hunused first count fun i h h' => unusedBit_of_isManchester hv (hi i h h')
  have h0 : s.frame.field 0 8 = 0x80 ||| s.frame.field 0 2 := by
    rw [s.frame.field_add 0 7 1, s.frame.field_add 0 2 5, unused 2 5 (by omega), hflag, Nat.zero_shiftLeft, Nat.or_zero,
      Nat.or_comm]
  have h1 : s.frame.field 8 8 = s.frame.field 8 1 ||| (s.frame.field 9 3 <<< 1) ||| (s.frame.field 12 2 <<< 4) := by
    rw [s.frame.field_add 8 6 2, s.frame.field_add 8 4 2, s.frame.field_add 8 1 3, unused 14 2 (by omega),
      Nat.zero_shiftLeft, Nat.or_zero]
  have h2 : s.frame.field 16 8 = (s.frame.field 17 1 <<< 1) ||| (s.frame.field 18 5 <<< 2) := by
    rw [s.frame.field_add 16 7 1, s.frame.field_add 16 2 5, s.frame.field_add 16 1 1, unused 16 1 (by omega),
      unused 23 1 (by omega), Nat.zero_shiftLeft, Nat.or_zero, Nat.zero_or]
  rw [exec, execBbOctets, respond, hoctets, manchesterBytes, hRH, hRM, hRL, octet_eq_field hwithin,
    octet_eq_field hwithin, octet_eq_field hwithin, h0, h1, h2]

/-! ### The Vicon byte map (R72) -/

/-- What a SpeedCommand frame leaves unused, every Vicon frame does (R68-R70). -/
theorem unusedBit_of_isVicon : ∀ {v : Variant}, v.isVicon = true → ∀ {k : Nat},
    Variant.vicSpeed.unusedBit k = true → v.unusedBit k = true
  | .vicStatus, _, _, hk | .vicCmd, _, _, hk => by
    simp only [Variant.unusedBit, decide_eq_true_eq] at hk ⊢
    omega
  | .vicSpeed, _, _, hk => hk

/-- The flags of byte 4 stand at six different bits, so their sum is their union. -/
theorem flag_sum_eq_or : ∀ a b c d e g : Bool,
    (a.toNat <<< 1) + (b.toNat <<< 2) + (c.toNat <<< 3) + (d.toNat <<< 4) + (e.toNat <<< 5) + (g.toNat <<< 6) =
      (a.toNat <<< 1) ||| (b.toNat <<< 2) ||| (c.toNat <<< 3) ||| (d.toNat <<< 4) ||| (e.toNat <<< 5) |||
        (g.toNat <<< 6) := by decide

/-- Every octet of a Vicon frame is its byte of R72, those past the last field too. -/
theorem octet_eq_viconByte {s : State} (hv : s.variant.isVicon = true) (hwithin : s.BitsWithin) (hsync : s.SyncSet)
    (hunused : s.UnusedZero) (k : Nat) : octet s k = viconByte s.frame k := by
  obtain ⟨hRHN, hRLN⟩ := vicReceiver_nibbles s.frame
  have hflag := sync_field hsync (by simp [Variant.isCodec, hv])
  have unused : ∀ first count, (∀ i, first ≤ i → i < first + count → Variant.vicSpeed.unusedBit i = true) →
      s.frame.field first count = 0 := fun first count hi =>
    field_eq_zero_of_unused hunused first count fun i h h' => unusedBit_of_isVicon hv (hi i h h')
  simp only [Variant.unusedBit, decide_eq_true_eq] at unused
  rw [octet_eq_field hwithin]
  unfold viconByte
  split
  case h_1 =>
    rw [hRHN, s.frame.field_add 0 7 1, s.frame.field_add 0 4 3, hflag, unused 4 3 (by omega), Nat.zero_shiftLeft,
      Nat.or_zero, Nat.or_comm]
  case h_2 =>
    rw [hRLN, s.frame.field_add 8 7 1, s.frame.field_add 8 6 1, s.frame.field_add 8 5 1, s.frame.field_add 8 4 1,
      unused 13 1 (by omega), unused 15 1 (by omega), Nat.zero_shiftLeft, Nat.zero_shiftLeft, Nat.or_zero, Nat.or_zero]
  case h_3 =>
    rw [s.frame.field_eight, unused 16 1 (by omega), unused 23 1 (by omega), Nat.zero_shiftLeft, Nat.or_zero,
      Nat.zero_or]
  case h_4 => rw [s.frame.field_eight, unused 31 1 (by omega), Nat.zero_shiftLeft, Nat.or_zero]
  case h_5 =>
    rw [s.frame.field_eight, unused 32 1 (by omega), unused 39 1 (by omega), Nat.zero_shiftLeft, Nat.or_zero,
      Nat.zero_or]
    simp only [Frame.field_one, flag_sum_eq_or]
  case h_6 => rw [s.frame.field_add 48 4 4, unused 52 4 (by omega), Nat.zero_shiftLeft, Nat.or_zero]
  case h_7 => rw [s.frame.field_add 56 7 1, unused 63 1 (by omega), Nat.zero_shiftLeft, Nat.or_zero]
  case h_8 => rw [s.frame.field_add 64 4 4, unused 68 4 (by omega), Nat.zero_shiftLeft, Nat.or_zero]
  case h_9 => rw [s.frame.field_add 72 7 1, unused 79 1 (by omega), Nat.zero_shiftLeft, Nat.or_zero]
  case h_10 h0 h1 h2 h3 h4 h6 h7 h8 h9 =>
    simp only [imp_false] at h0 h1 h2 h3 h4 h6 h7 h8 h9
    rw [unused (8 * k) 8 (by omega)]
    rfl

/-- Settles O52: octet by octet, each is its byte of R72. -/
theorem viconByteMap : Obligations.ViconByteMap := by
  intro s hs hv
  obtain ⟨-, -, -, -, hwithin, hsync, -, hunused, -, -⟩ := hs
  rw [exec, execBbOctets, respond, octets, funext (octet_eq_viconByte hv hwithin hsync hunused)]

end Sys2Proof.Machine

/-! PROOFS of 30_encoding.md, the assembler (R81, R82): the operand lists each form reads, the operands that fit, and a
line of text read as its mnemonic and operands. -/

namespace Sys2Proof.Machine

/-! ### What each form reads (R81) -/

section
variable {ops : List Int} {i : Instr}

theorem unsignedOperand_eq_some {v : Int} {n : Nat} : unsignedOperand v = some n ↔ v = n := by
  unfold unsignedOperand
  split
  · rw [Option.some.injEq]; omega
  · simp only [reduceCtorEq, false_iff]; omega

theorem bitOperand_eq_some {v : Int} {b : Bool} : bitOperand v = some b ↔ v = b.toNat := by
  unfold bitOperand
  cases b <;> split <;> simp_all

theorem noOperand_eq_some {j : Instr} : noOperand j ops = some i ↔ ops = [] ∧ j = i := by
  cases ops <;> simp [noOperand]

theorem oneUnsigned_eq_some {mk : Nat → Instr} :
    oneUnsigned mk ops = some i ↔ ∃ n : Nat, ops = [(n : Int)] ∧ mk n = i := by
  match ops with
  | [v] => simp [oneUnsigned, unsignedOperand_eq_some]
  | [] | _ :: _ :: _ => simp [oneUnsigned]

theorem oneSigned_eq_some {mk : Int → Instr} : oneSigned mk ops = some i ↔ ∃ v, ops = [v] ∧ mk v = i := by
  match ops with
  | [v] => simp [oneSigned]
  | [] | _ :: _ :: _ => simp [oneSigned]

theorem oneBit_eq_some {mk : Bool → Instr} :
    oneBit mk ops = some i ↔ ∃ b : Bool, ops = [(b.toNat : Int)] ∧ mk b = i := by
  match ops with
  | [v] => simp [oneBit, bitOperand_eq_some]
  | [] | _ :: _ :: _ => simp [oneBit]

theorem unsignedBit_eq_some {mk : Nat → Bool → Instr} : unsignedBit mk ops = some i ↔
    ∃ (n : Nat) (b : Bool), ops = [(n : Int), (b.toNat : Int)] ∧ mk n b = i := by
  match ops with
  | [v, x] => simp [unsignedBit, Option.bind_eq_some_iff, unsignedOperand_eq_some, bitOperand_eq_some, and_assoc]
  | [] | [_] | _ :: _ :: _ :: _ => simp [unsignedBit]

theorem signedBit_eq_some {mk : Int → Bool → Instr} : signedBit mk ops = some i ↔
    ∃ (v : Int) (b : Bool), ops = [v, (b.toNat : Int)] ∧ mk v b = i := by
  match ops with
  | [v, x] => simp [signedBit, bitOperand_eq_some, and_assoc, -Bool.exists_bool]
  | [] | [_] | _ :: _ :: _ :: _ => simp [signedBit]

theorem threeUnsigned_eq_some {mk : Nat → Nat → Nat → Instr} : threeUnsigned mk ops = some i ↔
    ∃ a b c : Nat, ops = [(a : Int), (b : Int), (c : Int)] ∧ mk a b c = i := by
  match ops with
  | [x, y, z] => simp [threeUnsigned, Option.bind_eq_some_iff, unsignedOperand_eq_some, and_assoc]
  | [] | [_] | [_, _] | _ :: _ :: _ :: _ :: _ => simp [threeUnsigned]

theorem assemble_eq_some {m : String} : assemble m ops = some i ↔ asmForm m ops = some i ∧ i.wf = true := by
  simp only [assemble, Option.bind_eq_some_iff, Option.ite_none_right_eq_some, Option.some.injEq]
  constructor
  · rintro ⟨j, hj, hwf, rfl⟩; exact ⟨hj, hwf⟩
  · rintro ⟨hi, hwf⟩; exact ⟨i, hi, hwf, rfl⟩

end

/-! ### The operation written is the operation given (R81) -/

/-- Every well-formed operation is assembled from its own mnemonic and operands. -/
theorem assemble_operandsOf {i : Instr} (h : i.wf = true) : assemble i.mnemonic (operandsOf i) = some i := by
  refine assemble_eq_some.mpr ⟨?_, h⟩
  cases i with
  | bbNew n | bbGet n => exact oneUnsigned_eq_some.mpr ⟨n, rfl, rfl⟩
  | bbSet n b => exact unsignedBit_eq_some.mpr ⟨n, b, rfl, rfl⟩
  | bbWrf first count value => exact threeUnsigned_eq_some.mpr ⟨first, count, value, rfl, rfl⟩
  | bbOctets | frameDiscard | frameInfo | manNewPt | manNewLens | manNewAux | vicNewStatus | vicNewCmd | vicNewSpeed =>
    exact noOperand_eq_some.mpr ⟨rfl, rfl⟩
  | manRecv v | manPan v | manTilt v | manZoom v | manFocus v | manIris v | manAux v | vicRecv v | vicPan v
  | vicTilt v | vicZoom v | vicIris v | vicFocus v => rfl
  | vicAutoIris b | vicAutoPan b | vicLensSpeed b => exact oneBit_eq_some.mpr ⟨b, rfl, rfl⟩
  | vicAux ch b => exact signedBit_eq_some.mpr ⟨ch, b, rfl, rfl⟩

/-- What a mnemonic other than the pseudo-instructions gives has that mnemonic and those operands. -/
theorem operandsOf_of_asmForm {m : String} {ops : List Int} {i : Instr} (h : asmForm m ops = some i) :
    (i.mnemonic = m ∧ operandsOf i = ops) ∨ m ∈ pseudoMnemonics := by
  unfold asmForm at h
  split at h
  -- The arms of `asmForm`: `h_1` to `h_30` in R77's order, taken form by form, then the pseudo-instructions of R82.
  case h_5 | h_6 | h_7 | h_8 | h_9 | h_10 | h_18 | h_19 | h_20 =>
    obtain ⟨rfl, rfl⟩ := noOperand_eq_some.mp h
    exact .inl ⟨rfl, rfl⟩
  case h_1 | h_2 =>
    obtain ⟨n, rfl, rfl⟩ := oneUnsigned_eq_some.mp h
    exact .inl ⟨rfl, rfl⟩
  case h_3 =>
    obtain ⟨n, b, rfl, rfl⟩ := unsignedBit_eq_some.mp h
    exact .inl ⟨rfl, rfl⟩
  case h_4 =>
    obtain ⟨first, count, value, rfl, rfl⟩ := threeUnsigned_eq_some.mp h
    exact .inl ⟨rfl, rfl⟩
  case h_11 | h_12 | h_13 | h_14 | h_15 | h_16 | h_17 | h_21 | h_22 | h_23 | h_24 | h_25 | h_26 =>
    obtain ⟨v, rfl, rfl⟩ := oneSigned_eq_some.mp h
    exact .inl ⟨rfl, rfl⟩
  case h_27 | h_28 | h_29 =>
    obtain ⟨b, rfl, rfl⟩ := oneBit_eq_some.mp h
    exact .inl ⟨rfl, rfl⟩
  case h_30 =>
    obtain ⟨ch, b, rfl, rfl⟩ := signedBit_eq_some.mp h
    exact .inl ⟨rfl, rfl⟩
  case h_31 | h_32 | h_33 | h_34 => exact .inr (by decide)
  case h_35 => cases h

/-! ### The operands that fit (R81) -/

section
variable {v : Int}

/-- `v` is in the range. -/
abbrev OperandRange.Has (r : OperandRange) (v : Int) : Prop := r.least ≤ v ∧ v ≤ r.greatest

theorem idx_has : OperandRange.idx.Has v ↔ ∃ n : Nat, fitsIdx n = true ∧ v = n := by
  simp only [OperandRange.Has, OperandRange.idx, fitsIdx, decide_eq_true_eq]
  exact ⟨fun h => ⟨v.toNat, by omega⟩, by rintro ⟨n, hn, rfl⟩; omega⟩

theorem count_has : OperandRange.count.Has v ↔ ∃ n : Nat, fitsCount n = true ∧ v = n := by
  simp only [OperandRange.Has, OperandRange.count, fitsCount, decide_eq_true_eq]
  exact ⟨fun h => ⟨v.toNat, by omega⟩, by rintro ⟨n, hn, rfl⟩; omega⟩

theorem value_has : OperandRange.value.Has v ↔ ∃ n : Nat, fitsUnsigned n = true ∧ v = n := by
  simp only [OperandRange.Has, OperandRange.value, fitsUnsigned, decide_eq_true_eq]
  exact ⟨fun h => ⟨v.toNat, by omega⟩, by rintro ⟨n, hn, rfl⟩; omega⟩

theorem signed_has : OperandRange.signed.Has v ↔ fitsSigned v = true := by
  simp only [OperandRange.Has, OperandRange.signed, fitsSigned, decide_eq_true_eq]
  omega

theorem bit_has : OperandRange.bit.Has v ↔ ∃ b : Bool, v = b.toNat := by
  simp only [OperandRange.Has, OperandRange.bit, Bool.exists_bool, Bool.toNat_false, Bool.toNat_true]
  omega

end

/-- The mnemonic takes the operands that fit the ranges, one for each, and no others. -/
abbrev TakesOperands (m : String) (ranges : List OperandRange) : Prop :=
  ∀ ops : List Int, (assemble m ops).isSome = true ↔ OperandsFit ops ranges

section
variable {m : String}

theorem assemble_isSome {ops : List Int} :
    (assemble m ops).isSome = true ↔ ∃ i, asmForm m ops = some i ∧ i.wf = true := by
  simp only [Option.isSome_iff_exists, assemble_eq_some]

theorem noOperand_takes {i : Instr} (hm : asmForm m = noOperand i) (hwf : i.wf = true) : TakesOperands m [] := by
  intro ops
  rw [assemble_isSome, hm, OperandsFit, List.forall₂_nil_right_iff]
  simp only [noOperand_eq_some]
  exact ⟨fun ⟨_, h, _⟩ => h.1, fun h => ⟨i, ⟨h, rfl⟩, hwf⟩⟩

theorem oneUnsigned_takes {mk : Nat → Instr} (hm : asmForm m = oneUnsigned mk) (hwf : ∀ n, (mk n).wf = fitsIdx n) :
    TakesOperands m [.idx] := by
  intro ops
  rw [assemble_isSome, hm]
  simp only [oneUnsigned_eq_some]
  constructor
  · rintro ⟨_, ⟨n, rfl, rfl⟩, h⟩
    exact .cons (idx_has.mpr ⟨n, hwf n ▸ h, rfl⟩) .nil
  · rintro (_ | ⟨hv, ⟨⟩⟩)
    obtain ⟨n, hn, rfl⟩ := idx_has.mp hv
    exact ⟨_, ⟨n, rfl, rfl⟩, (hwf n).trans hn⟩

theorem oneSigned_takes {mk : Int → Instr} (hm : asmForm m = oneSigned mk) (hwf : ∀ v, (mk v).wf = fitsSigned v) :
    TakesOperands m [.signed] := by
  intro ops
  rw [assemble_isSome, hm]
  simp only [oneSigned_eq_some]
  constructor
  · rintro ⟨_, ⟨v, rfl, rfl⟩, h⟩
    exact .cons (signed_has.mpr (hwf v ▸ h)) .nil
  · rintro (_ | ⟨hv, ⟨⟩⟩)
    exact ⟨_, ⟨_, rfl, rfl⟩, (hwf _).trans (signed_has.mp hv)⟩

theorem oneBit_takes {mk : Bool → Instr} (hm : asmForm m = oneBit mk) (hwf : ∀ b, (mk b).wf = true) :
    TakesOperands m [.bit] := by
  intro ops
  rw [assemble_isSome, hm]
  simp only [oneBit_eq_some]
  constructor
  · rintro ⟨_, ⟨b, rfl, rfl⟩, h⟩
    exact .cons (bit_has.mpr ⟨b, rfl⟩) .nil
  · rintro (_ | ⟨hv, ⟨⟩⟩)
    obtain ⟨b, rfl⟩ := bit_has.mp hv
    exact ⟨_, ⟨b, rfl, rfl⟩, hwf b⟩

theorem bbSet_takes : TakesOperands "BB.SET" [.idx, .bit] := by
  intro ops
  rw [assemble_isSome]
  show (∃ i, unsignedBit .bbSet ops = some i ∧ i.wf = true) ↔ _
  simp only [unsignedBit_eq_some]
  constructor
  · rintro ⟨_, ⟨n, b, rfl, rfl⟩, h⟩
    exact .cons (idx_has.mpr ⟨n, h, rfl⟩) (.cons (bit_has.mpr ⟨b, rfl⟩) .nil)
  · rintro (_ | ⟨hv, (_ | ⟨hb, ⟨⟩⟩)⟩)
    obtain ⟨n, hn, rfl⟩ := idx_has.mp hv
    obtain ⟨b, rfl⟩ := bit_has.mp hb
    exact ⟨_, ⟨n, b, rfl, rfl⟩, hn⟩

theorem vicAux_takes : TakesOperands "VIC.AUX" [.signed, .bit] := by
  intro ops
  rw [assemble_isSome]
  show (∃ i, signedBit .vicAux ops = some i ∧ i.wf = true) ↔ _
  simp only [signedBit_eq_some]
  constructor
  · rintro ⟨_, ⟨v, b, rfl, rfl⟩, h⟩
    exact .cons (signed_has.mpr h) (.cons (bit_has.mpr ⟨b, rfl⟩) .nil)
  · rintro (_ | ⟨hv, (_ | ⟨hb, ⟨⟩⟩)⟩)
    obtain ⟨b, rfl⟩ := bit_has.mp hb
    exact ⟨_, ⟨_, b, rfl, rfl⟩, signed_has.mp hv⟩

theorem bbWrf_takes : TakesOperands "BB.WRF" [.idx, .count, .value] := by
  intro ops
  rw [assemble_isSome]
  show (∃ i, threeUnsigned .bbWrf ops = some i ∧ i.wf = true) ↔ _
  simp only [threeUnsigned_eq_some]
  constructor
  · rintro ⟨_, ⟨first, count, value, rfl, rfl⟩, h⟩
    simp only [Instr.wf, Bool.and_eq_true] at h
    obtain ⟨⟨hfirst, hcount⟩, hvalue⟩ := h
    exact .cons (idx_has.mpr ⟨first, hfirst, rfl⟩) (.cons (count_has.mpr ⟨count, hcount, rfl⟩)
      (.cons (value_has.mpr ⟨value, hvalue, rfl⟩) .nil))
  · rintro (_ | ⟨hv, (_ | ⟨hc, (_ | ⟨hx, ⟨⟩⟩)⟩)⟩)
    obtain ⟨first, hfirst, rfl⟩ := idx_has.mp hv
    obtain ⟨count, hcount, rfl⟩ := count_has.mp hc
    obtain ⟨value, hvalue, rfl⟩ := value_has.mp hx
    exact ⟨_, ⟨first, count, value, rfl, rfl⟩, by simp [Instr.wf, hfirst, hcount, hvalue]⟩

end

/-- Every mnemonic takes the operands of its line of R81 or R82. -/
theorem takesOperands_of_mem : ∀ row ∈ operandRanges, TakesOperands row.1 row.2 := by
  simp only [operandRanges, List.forall_mem_cons]
  exact ⟨oneUnsigned_takes rfl fun _ => rfl, oneUnsigned_takes rfl fun _ => rfl, bbSet_takes, bbWrf_takes,
    noOperand_takes rfl rfl, noOperand_takes rfl rfl, noOperand_takes rfl rfl,
    noOperand_takes rfl rfl, noOperand_takes rfl rfl, noOperand_takes rfl rfl, oneSigned_takes rfl fun _ => rfl,
    oneSigned_takes rfl fun _ => rfl, oneSigned_takes rfl fun _ => rfl, oneSigned_takes rfl fun _ => rfl,
    oneSigned_takes rfl fun _ => rfl, oneSigned_takes rfl fun _ => rfl, oneSigned_takes rfl fun _ => rfl,
    noOperand_takes rfl rfl, noOperand_takes rfl rfl, noOperand_takes rfl rfl, oneSigned_takes rfl fun _ => rfl,
    oneSigned_takes rfl fun _ => rfl, oneSigned_takes rfl fun _ => rfl, oneSigned_takes rfl fun _ => rfl,
    oneSigned_takes rfl fun _ => rfl, oneSigned_takes rfl fun _ => rfl, oneBit_takes rfl fun _ => rfl,
    oneBit_takes rfl fun _ => rfl, oneBit_takes rfl fun _ => rfl, vicAux_takes,
    oneUnsigned_takes rfl fun _ => rfl, oneUnsigned_takes rfl fun _ => rfl, oneSigned_takes rfl fun _ => rfl,
    oneSigned_takes rfl fun _ => rfl, fun _ h => absurd h List.not_mem_nil⟩

/-! ### The pseudo-instructions (R82) -/

/-- `BB.CLR` and `BB.ONE` are `BB.SET` with the bit given. -/
theorem assemble_bbSet_bit {m : String} {b : Bool} (hm : asmForm m = oneUnsigned fun i => .bbSet i b) (v : Int) :
    assemble m [v] = assemble "BB.SET" [v, b.toNat] := by
  have hbit : bitOperand b.toNat = some b := bitOperand_eq_some.mpr rfl
  have hform : asmForm "BB.SET" [v, b.toNat] = asmForm m [v] := by
    show ((unsignedOperand v).bind fun n => (bitOperand b.toNat).map (Instr.bbSet n)) = _
    rw [hm, hbit, oneUnsigned, Option.map_eq_bind]
    rfl
  rw [assemble, assemble, hform]

/-! ### A line of text (R81; log entry 11) -/

theorem mnemonic_plain : ∀ row ∈ operandRanges, ' ' ∉ row.1.toList ∧ row.1.toList ≠ [] := by decide

theorem ne_space_of_plain {cs : List Char} (h : ' ' ∉ cs) : ∀ c ∈ cs, decide (c ≠ ' ') = true :=
  fun _ hc => decide_eq_true fun e => h (e ▸ hc)

/-- A line that is a mnemonic alone has no operands. -/
theorem assembleLine_alone {m : String} (hs : ' ' ∉ m.toList) : assembleLine m = assemble m [] := by
  have hplain := ne_space_of_plain hs
  rw [assembleLine, assembleChars, trimSpaces_plain hs, List.dropWhile_eq_nil_iff.mpr hplain,
    List.takeWhile_eq_self_iff.mpr hplain, String.ofList_toList]
  rfl

/-- The operands of a line start with no space. -/
theorem head?_operandText {t : List Char} (ts : List (List Char)) (hs : ' ' ∉ t) (hne : t ≠ []) :
    (operandText (t :: ts)).head? ≠ some ' ' := by
  obtain ⟨c, cs, rfl⟩ := List.exists_cons_of_ne_nil hne
  cases ts <;> simp [operandText] <;> exact fun e => hs (by simp [e])

/-- The operands of a line, after the space that ends the mnemonic, read back. -/
theorem asmOperands_operandText {t : List Char} {ts : List (List Char)} {ops : List Int}
    (h : List.Forall₂ WrittenAs (t :: ts) ops) : asmOperands (' ' :: operandText (t :: ts)) = some ops := by
  obtain ⟨c, hc, hlast⟩ := getLast?_operandText h (by simp)
  have htrim : trimSpaces (' ' :: operandText (t :: ts)) = operandText (t :: ts) := by
    obtain ⟨v, vs, ht, -, -⟩ := List.forall₂_cons_left_iff.mp h
    obtain ⟨hspace, -, hne⟩ := ht.plain
    rw [trimSpaces_cons_space, trimSpaces_of_ends (head?_operandText ts hspace hne) (by simpa [hlast] using hc)]
  have hne : operandText (t :: ts) ≠ [] := fun e => by simp [e] at hlast
  rw [asmOperands, htrim, if_neg hne, allNumbers_splitCommas_space, allNumbers_operandText h (by simp)]

/-- A line is cut at its first space, into the mnemonic and the operands. -/
theorem assembleLine_operands {m : String} {t : List Char} {ts : List (List Char)} {ops : List Int}
    (hs : ' ' ∉ m.toList) (hne : m.toList ≠ []) (h : List.Forall₂ WrittenAs (t :: ts) ops) :
    assembleLine (asmLine m (t :: ts)) = assemble m ops := by
  have hplain := ne_space_of_plain hs
  obtain ⟨c, hc, hlast⟩ := getLast?_operandText h (by simp)
  have htrim : trimSpaces (m.toList ++ ' ' :: operandText (t :: ts)) = m.toList ++ ' ' :: operandText (t :: ts) := by
    refine trimSpaces_of_ends ?_ (by simpa [List.getLast?_append, List.getLast?_cons, hlast] using hc)
    rw [List.head?_append_of_ne_nil _ hne]
    exact fun e => hs (List.mem_of_head? e)
  rw [assembleLine, asmLine, String.toList_ofList, assembleChars, htrim, List.dropWhile_append_of_pos hplain,
    List.takeWhile_append_of_pos hplain, List.dropWhile_cons_of_neg (by simp), List.takeWhile_cons_of_neg (by simp),
    asmOperands_operandText h, List.append_nil, String.ofList_toList]

/-- Settles O6: the mnemonic selects the form, the form reads the operands, and `Instr.wf` is R81's range check. -/
theorem assemblerGivesOnlyFittingOperations : Obligations.AssemblerGivesOnlyFittingOperations := by
  refine ⟨fun i => assemble_operandsOf, fun m ops i h => ?_, takesOperands_of_mem, fun v => ?_,
    fun row hrow texts ops h => ?_⟩
  · obtain ⟨hform, hwf⟩ := assemble_eq_some.mp h
    exact ⟨hwf, operandsOf_of_asmForm hform⟩
  · exact ⟨assemble_bbSet_bit (b := false) rfl v, assemble_bbSet_bit (b := true) rfl v, rfl, rfl⟩
  · obtain ⟨hs, hne⟩ := mnemonic_plain row hrow
    cases texts with
    | nil =>
      obtain rfl := List.forall₂_nil_left_iff.mp h
      exact assembleLine_alone hs
    | cons t ts => exact assembleLine_operands hs hne h

end Sys2Proof.Machine

/-! PROOFS of 40_bitbuffer.md: the BitBuffer and frame operations (R100-R106) and the laws of R107 and R108. The
`exec_bb…` lemmas say once what `BB.GET`, `BB.SET` and `BB.WRF` answer, and the laws run the operations by them alone. -/

namespace Sys2Proof.Machine

/-! ### What a state is after a write, and after a new frame -/

/-- Writing FRAME and answering changes nothing else. -/
theorem keepsAllButFrame_withFrame (s : State) (f : Frame) (r : Response) :
    KeepsAllButFrame s ((s.withFrame f).answer r) r :=
  ⟨rfl, rfl, rfl, rfl, rfl⟩

theorem holdsNewFrame_hold (s : State) (v : Variant) (w : Nat) (f : Frame) :
    HoldsNewFrame s ((s.hold v w f).answer (.ok .empty)) v w :=
  ⟨rfl, rfl, rfl, rfl, rfl⟩

/-- Committing one descriptor that fits writes it (R44). -/
theorem commit_one_of_fits {d : Descriptor} {s : State} (h : d.first + d.count ≤ s.width) :
    commit [d] s = .next ((s.withFrame (s.frame.write d)).answer (.ok .empty)) :=
  commit_of_fits (firstUnfit_eq_none.mpr (List.forall_mem_singleton.mpr h))

/-- Committing one descriptor that does not fit writes nothing (R44). -/
theorem commit_one_of_unfit {d : Descriptor} {s : State} (h : s.width < d.first + d.count) :
    commit [d] s = .next (s.answer (.error (.outOfRange d.first d.count))) :=
  commit_of_unfit (by rw [firstUnfit_cons, if_neg (Nat.not_le.mpr h)])

/-! ### `BB.GET`, `BB.SET` and `BB.WRF` (R101-R103) -/

section
variable {s : State}

theorem exec_bbGet_of_lt {i : Nat} (h : i < s.width) :
    exec (.bbGet i) s = .next (s.answer (.ok (.bit (s.frame.bit i)))) := by
  rw [exec, execBbGet, if_neg (Nat.not_le.mpr h), respond]

theorem exec_bbGet_of_le {i : Nat} (h : s.width ≤ i) :
    exec (.bbGet i) s = .next (s.answer (.error (.outOfRange i 1))) := by
  rw [exec, execBbGet, if_pos h, raise]

theorem exec_bbSet_raw (i : Nat) (b : Bool) (hv : s.variant = .raw) :
    exec (.bbSet i b) s = commit [flagField i b] s :=
  onlyIn_of_mem (List.mem_singleton.mpr hv)

theorem exec_bbSet_of_lt {i : Nat} (b : Bool) (hv : s.variant = .raw) (h : i < s.width) : exec (.bbSet i b) s =
    .next ((s.withFrame (s.frame.write (flagField i b))).answer (.ok .empty)) :=
  (exec_bbSet_raw i b hv).trans (commit_one_of_fits h)

theorem exec_bbWrf_raw (first count value : Nat) (hv : s.variant = .raw) :
    exec (.bbWrf first count value) s = commit [⟨first, count, value⟩] s :=
  onlyIn_of_mem (List.mem_singleton.mpr hv)

theorem exec_bbWrf_of_fits {first count : Nat} (value : Nat) (hv : s.variant = .raw)
    (h : first + count ≤ s.width) : exec (.bbWrf first count value) s =
      .next ((s.withFrame (s.frame.write ⟨first, count, value⟩)).answer (.ok .empty)) :=
  (exec_bbWrf_raw first count value hv).trans (commit_one_of_fits h)

end

/-- Settles O18: on a raw frame `BB.SET` commits the one flag `i`, whose span is `(i, 1)`. -/
theorem bbSetWritesOneBit : Obligations.BbSetWritesOneBit := by
  refine ⟨encodedAs_bbSet, fun i b s hv => onlyIn_of_not_mem hv, fun i b s hv => ⟨fun h => ?_, fun h => ?_⟩⟩
  · exact ⟨_, exec_bbSet_of_lt b hv h, keepsAllButFrame_withFrame s _ _, fun k => s.frame.bit_write_flagField i k b⟩
  · exact (exec_bbSet_raw i b hv).trans (commit_one_of_unfit (Nat.lt_succ_of_le h))

/-- Settles O19: on a raw frame `BB.WRF` commits one descriptor, which is checked before anything is written. -/
theorem bbWrfWritesOneField : Obligations.BbWrfWritesOneField := by
  refine ⟨encodedAs_bbWrf, fun first count value s hv => onlyIn_of_not_mem hv,
    fun first count value s hv => ⟨fun h => ?_, fun h => ?_⟩⟩
  · exact ⟨_, exec_bbWrf_of_fits value hv h, keepsAllButFrame_withFrame s _ _,
      fun k => s.frame.bit_write ⟨first, count, value⟩ k⟩
  · exact (exec_bbWrf_raw first count value hv).trans (commit_one_of_unfit h)

/-- Settles O20: byte `k` of the response is octet `k`, whose bits `getLsbD_octet` gives. -/
theorem bbOctetsSerializesTheFrame : Obligations.BbOctetsSerializesTheFrame := by
  refine ⟨encodedAs_bbOctets, fun s => ⟨octets s, rfl, by rw [octets, List.length_map, List.length_range],
    fun k h j hj => ?_⟩⟩
  have hoctet : (octets s)[k] = octet s k := by simp [octets]
  rw [hoctet, getLsbD_octet s k j hj]

/-! ### The laws (R107, R108) -/

/-- Settles O23: `BB.SET` keeps WIDTH, so `BB.GET k` still reads, and it reads the frame with flag `i` written. -/
theorem setThenGetLaw : Obligations.SetThenGetLaw := by
  intro i k b s hv hi hk
  have hget := exec_bbGet_of_lt (s := (s.withFrame (s.frame.write (flagField i b))).answer (.ok .empty)) hk
  rw [State.answer_frame, State.withFrame_frame, Frame.bit_write_flagField] at hget
  exact ⟨exec_bbGet_of_lt hk, _, exec_bbSet_of_lt b hv hi, hget⟩

/-- The bits of a span, read one by one and summed at their places, are the field. -/
theorem Frame.sum_bits_eq_field (f : Frame) (first count : Nat) :
    ((List.range count).map fun j => (f.bit (first + j)).toNat <<< j).sum = f.field first count := by
  induction count with
  | zero => rfl
  | succ count ih =>
    rw [List.range_succ, List.map_append, List.sum_append, ih, Frame.field]
    cases hb : f.bit (first + count) <;> simp [hb, Nat.shiftLeft_eq]

/-- Settles O24: the bits read back are those of the field just written. -/
theorem writeFieldRoundTripLaw : Obligations.WriteFieldRoundTripLaw := by
  intro first count v s hv hfit
  refine ⟨_, fun j => (s.frame.write ⟨first, count, v⟩).bit (first + j), exec_bbWrf_of_fits v hv hfit,
    fun j hj => exec_bbGet_of_lt (Nat.lt_of_lt_of_le (Nat.add_lt_add_left hj first) hfit), ?_⟩
  rw [Frame.sum_bits_eq_field]
  exact s.frame.field_write_same ⟨first, count, v⟩

/-! ### Making, reading, dropping and reporting the frame (R100, R101, R105, R106) -/

/-- Settles O16: `BB.NEW` has no fixed bits to commit, so up to MAX_BITS nothing can fail. -/
theorem bbNewMakesAZeroFrame : Obligations.BbNewMakesAZeroFrame := by
  refine ⟨encodedAs_bbNew, fun n s => ⟨fun h => ?_, fun h => ?_⟩⟩
  · have hexec : exec (.bbNew n) s = .next ((s.hold .raw n Frame.zeros).answer (.ok .empty)) := by
      rw [exec, execBbNew, if_neg (Nat.not_lt.mpr h), newFrame_of_fits (firstUnfit_nil n), Frame.writeAll_nil]
    exact ⟨_, hexec, holdsNewFrame_hold s .raw n _, Frame.bit_zeros⟩
  · rw [exec, execBbNew, if_pos h, raise]

/-- Settles O17, by the two outcomes of `BB.GET`. -/
theorem bbGetReadsOneBit : Obligations.BbGetReadsOneBit :=
  ⟨encodedAs_bbGet, fun _ _ => ⟨exec_bbGet_of_lt, exec_bbGet_of_le⟩⟩

/-- Settles O21: `FRAME.DISCARD` holds `Frame.zeros` as variant NONE at width 0. -/
theorem frameDiscardHoldsNoFrame : Obligations.FrameDiscardHoldsNoFrame :=
  ⟨encodedAs_frameDiscard, fun s => ⟨_, rfl, holdsNewFrame_hold s .none 0 _, Frame.bit_zeros⟩⟩

/-- Settles O22: the response is the variant's code, one of R21's eight, and WIDTH. -/
theorem frameInfoReportsVariantAndWidth : Obligations.FrameInfoReportsVariantAndWidth :=
  ⟨encodedAs_frameInfo, ⟨rfl, rfl, rfl, rfl, rfl, rfl, rfl, rfl⟩, fun _ => rfl⟩

end Sys2Proof.Machine

/-! PROOFS of 41_manchester.md: the Manchester encoder (R120-R132). A new frame is read bit by bit from the writes that
make it; a setter is run once (`exec_manRecv`, `manMove_of_ok`, `manLens_of_ne_zero`, `exec_manAux`) and every statement
about one setter, or about two in a row, reads the frame it leaves. -/

namespace Sys2Proof.Machine

/-! ### The frames made (R120-R122) -/

/-- Reading a bit after a field was written from a parameter of the field's width. -/
theorem Frame.bit_write_toNat {n : Nat} (f : Frame) (first : Nat) (x : BitVec n) (k : Nat) :
    (f.write ⟨first, n, x.toNat⟩).bit k =
      if first ≤ k ∧ k < first + n then x.getLsbD (k - first) else f.bit k := by
  rw [Frame.bit_write, BitVec.testBit_toNat]

/-- The sync flag and the discriminator written to an empty frame (R61, R63). -/
theorem bit_writeAll_syncDisc (d : BitVec 1) (k : Nat) :
    (Frame.zeros.writeAll [flagField FlagAt.sync true, ⟨FlagAt.disc, 1, d.toNat⟩]).bit k =
      if k = 7 then true else if k = 17 then d.getLsbD 0 else false := by
  simp only [Frame.writeAll_cons, Frame.writeAll_nil, Frame.bit_write_toNat, Frame.bit_write_flagField,
    Frame.bit_zeros, FlagAt.sync, FlagAt.disc]
  by_cases h17 : k = 17
  · simp [h17]
  · rw [if_neg (by omega), if_neg h17]

/-- The fixed bits of a lens or an auxiliary frame: DISC is the complement of a pan/tilt frame's, and F2 holds the
function code (R63, R64). -/
theorem bit_writeAll_syncDiscF2 (d : BitVec 1) (code : BitVec 2) (k : Nat) :
    (Frame.zeros.writeAll
        ([flagField FlagAt.sync true, ⟨FlagAt.disc, 1, (~~~d).toNat⟩] ++ [manF2 code.toNat])).bit k =
      if k = 7 then true else if k = 17 then !d.getLsbD 0
      else if 12 ≤ k ∧ k < 14 then code.getLsbD (k - 12) else false := by
  rw [Frame.writeAll_append, Frame.writeAll_cons, Frame.writeAll_nil, manF2, Frame.bit_write_toNat,
    bit_writeAll_syncDisc, BitVec.getLsbD_not]
  by_cases hF2 : 12 ≤ k ∧ k < 12 + 2
  · rw [if_pos hF2, if_neg (by omega), if_neg (by omega), if_pos hF2]
  · rw [if_neg hF2, if_neg hF2]; rfl

/-- What a Manchester frame fixes fits its 24 bits, so making one cannot fail. -/
theorem newManchester_of_fits (v : Variant) (disc : BitVec 1) (ds : List Descriptor) (s : State)
    (h : firstUnfit 24 ds = none) : newManchester v disc ds s = .next ((s.hold v 24 (Frame.zeros.writeAll
      ([flagField FlagAt.sync true, ⟨FlagAt.disc, 1, disc.toNat⟩] ++ ds))).answer (.ok .empty)) :=
  newFrame_of_fits ((firstUnfit_append_of_fits rfl).trans h)

/-- Settles O25: the sync flag and the discriminator are all that a pan/tilt frame fixes. -/
theorem manNewPtMakesItsFrame : Obligations.ManNewPtMakesItsFrame :=
  ⟨encodedAs_manNewPt, fun s => ⟨_, newManchester_of_fits .manPt _ [] s rfl,
    holdsNewFrame_hold s .manPt 24 _, bit_writeAll_syncDisc s.cfg.manPtDisc⟩⟩

/-- Settles O26, with the lens function code in F2. -/
theorem manNewLensMakesItsFrame : Obligations.ManNewLensMakesItsFrame :=
  ⟨encodedAs_manNewLens, fun s => ⟨_, newManchester_of_fits .manLens _ [manF2 _] s rfl,
    holdsNewFrame_hold s .manLens 24 _, bit_writeAll_syncDiscF2 s.cfg.manPtDisc s.cfg.manFcLens⟩⟩

/-- Settles O27, with the auxiliary function code in F2. -/
theorem manNewAuxMakesItsFrame : Obligations.ManNewAuxMakesItsFrame :=
  ⟨encodedAs_manNewAux, fun s => ⟨_, newManchester_of_fits .manAux _ [manF2 _] s rfl,
    holdsNewFrame_hold s .manAux 24 _, bit_writeAll_syncDiscF2 s.cfg.manPtDisc s.cfg.manFcAux⟩⟩

/-! ### The receiver (R123) -/

/-- Each bit of the receiver's pieces is a bit of `z`: z[7:6] at 0, z[5] at 8, z[4:0] at 18 (R62). -/
theorem Frame.bit_writeAll_manReceiver (f : Frame) (z k : Nat) : (f.writeAll (manReceiverFields z)).bit k =
    if k < 2 then z.testBit (6 + k)
    else if k = 8 then z.testBit 5
    else if 18 ≤ k ∧ k < 23 then z.testBit (k - 18)
    else f.bit k := by
  simp only [manReceiverFields, Frame.writeAll_cons, Frame.writeAll_nil, Frame.bit_write]
  by_cases hRL : 18 ≤ k ∧ k < 18 + 5
  · rw [if_pos hRL, if_neg (by omega), if_neg (by omega), if_pos hRL, Nat.and_two_pow_sub_one_eq_mod _ 5,
      Nat.testBit_mod_two_pow, decide_eq_true (by omega), Bool.true_and]
  · rw [if_neg hRL, if_neg hRL]
    by_cases hRM : k = 8
    · subst hRM
      rw [if_pos (by omega), if_neg (by omega), if_pos rfl, Nat.testBit_and, Nat.testBit_shiftRight]
      simp
    · rw [if_neg (by omega), if_neg hRM, Nat.testBit_shiftRight, Nat.sub_zero]
      simp

/-- Settles O28: a receiver in 1..255 is a natural number, for which `exec_manRecv` gives the frame; any other is
rejected before anything is written. -/
theorem manRecvWritesTheReceiver : Obligations.ManRecvWritesTheReceiver := by
  refine ⟨encodedAs_manRecv, fun r s hv => onlyIn_of_not_mem hv, fun r s hv => ⟨fun hw h1 h255 => ?_, fun hr => ?_⟩⟩
  · lift r to Nat using by omega
    refine ⟨_, exec_manRecv hv hw (by omega) (by omega), keepsAllButFrame_withFrame s _ _, fun k => ?_⟩
    rw [show ((r : Int) - 1).toNat = r - 1 by omega]
    exact s.frame.bit_writeAll_manReceiver (r - 1) k
  · have hbad : badReceiver r = true := decide_eq_true hr
    rw [exec, execManRecv, onlyIn_of_mem (mem_of_isManchester hv), hbad, rejectIf_true]

/-! ### Pan and tilt (R124-R126) -/

section
variable {s : State} {v : Int} {neg pos : Nat}

/-- A Manchester setter whose descriptors fit 24 bits writes them. -/
theorem commit_of_isManchester {ds : List Descriptor} (hv : s.variant.isManchester = true) (hw : s.WidthOk)
    (hfit : firstUnfit 24 ds = none) :
    commit ds s = .next ((s.withFrame (s.frame.writeAll ds)).answer (.ok .empty)) :=
  commit_of_fits (by rwa [width_of_isManchester hv hw])

/-- A move writes the direction code of its sign, unless the input is zero, and then the speed. -/
theorem writeAll_manMoveFields (neg pos : Nat) (v : Int) (f : Frame) : f.writeAll (manMoveFields neg pos v) =
    (if v = 0 then f else f.write (manF2 (if 0 < v then pos else neg))).write (manF3 (v.natAbs % 8)) := by
  rcases Int.lt_trichotomy v 0 with hv | rfl | hv
  · simp [manMoveFields, hv, Int.ne_of_lt hv, Int.lt_asymm hv]
  · rfl
  · simp [manMoveFields, hv, Int.ne_of_gt hv, Int.lt_asymm hv]

theorem manMove_of_ok (hv : s.variant = .manPt) (hw : s.WidthOk)
    (hok : ¬ (s.cfg.rangePolicy = .strict ∧ 7 < v.natAbs)) : manMove neg pos v s =
      .next ((s.withFrame (s.frame.writeAll (manMoveFields neg pos v))).answer (.ok .empty)) := by
  have hbad : badManSpeed s.cfg v = false := decide_eq_false hok
  have hfit : firstUnfit 24 (manMoveFields neg pos v) = none :=
    firstUnfit_eq_none.mpr fun d hd => by have := mem_manMoveFields_span hd; omega
  rw [manMove, onlyIn_of_mem (List.mem_singleton.mpr hv), hbad, rejectIf_false,
    commit_of_isManchester (by rw [hv]; rfl) hw hfit]

theorem manMove_of_tooFast (hv : s.variant = .manPt) (hp : s.cfg.rangePolicy = .strict) (hspeed : 7 < v.natAbs) :
    manMove neg pos v s = .next (s.answer (.error (.rangeError v))) := by
  have hbad : badManSpeed s.cfg v = true := decide_eq_true ⟨hp, hspeed⟩
  rw [manMove, onlyIn_of_mem (List.mem_singleton.mpr hv), hbad, rejectIf_true]

/-- The low bit of a direction code is the sign, and the high bit the axis: 1 for pan, 0 for tilt (R8, R64). -/
theorem bit_writeAll_manMove (axis : Bool) (v : Int) (f : Frame) (k : Nat) :
    (f.writeAll (manMoveFields (2 * axis.toNat) (2 * axis.toNat + 1) v)).bit k =
      if 9 ≤ k ∧ k < 12 then (v.natAbs % 8).testBit (k - 9)
      else if k = 12 ∧ v ≠ 0 then decide (0 < v)
      else if k = 13 ∧ v ≠ 0 then axis
      else f.bit k := by
  rw [writeAll_manMoveFields, Frame.bit_write]
  refine ite_congr rfl (fun _ => rfl) fun _ => ?_
  by_cases hv : v = 0
  · simp [hv]
  · rw [if_neg hv, Frame.bit_write]
    by_cases h12 : k = 12
    · by_cases hpos : 0 < v <;> simp [h12, hv, hpos, manF2]
    · by_cases h13 : k = 13
      · by_cases hpos : 0 < v <;> cases axis <;> simp [h13, hv, hpos, manF2] <;> decide
      · rw [if_neg (by simp only [manF2]; omega)]
        simp [h12, h13]

/-- F2 and F3 read back after a move (R124, R125). -/
theorem fields_writeAll_manMove (hneg : neg < 4) (hpos : pos < 4) (v : Int) (f : Frame) :
    (f.writeAll (manMoveFields neg pos v)).field 12 2 =
        (if v < 0 then neg else if 0 < v then pos else f.field 12 2) ∧
      (f.writeAll (manMoveFields neg pos v)).field 9 3 = v.natAbs % 8 := by
  rw [writeAll_manMoveFields]
  refine ⟨?_, (Frame.field_write_same _ (manF3 _)).trans (Nat.mod_mod _ 8)⟩
  have hF2 : ∀ code < 4, (f.write (manF2 code)).field 12 2 = code := fun code h =>
    (f.field_write_same (manF2 code)).trans (Nat.mod_eq_of_lt h)
  rw [Frame.field_write_of_disjoint _ _ (by simp [manF3])]
  rcases Int.lt_trichotomy v 0 with hv | rfl | hv
  · rw [if_neg (Int.ne_of_lt hv), if_neg (Int.lt_asymm hv), hF2 neg hneg, if_pos hv]
  · rfl
  · rw [if_neg (Int.ne_of_gt hv), if_pos hv, hF2 pos hpos, if_neg (Int.lt_asymm hv), if_pos hv]

/-- Of two moves on one frame the later one's direction and speed stand (R126). -/
theorem manMove_manMove {a b : Int} (hv : s.variant = .manPt) (hw : s.WidthOk)
    (hok : s.cfg.rangePolicy = .strict → a.natAbs ≤ 7 ∧ b.natAbs ≤ 7) (neg' pos' : Nat) (hneg : neg < 4)
    (hpos : pos < 4) : ∃ t u, manMove neg' pos' a s = .next t ∧ manMove neg pos b t = .next u ∧
      u.frame.field 12 2 = (if b < 0 then neg else if 0 < b then pos else t.frame.field 12 2) ∧
      u.frame.field 9 3 = b.natAbs % 8 :=
  ⟨_, _, manMove_of_ok hv hw fun ⟨hp, ha⟩ => Nat.not_le.mpr ha (hok hp).1,
    manMove_of_ok hv hw fun ⟨hp, hb⟩ => Nat.not_le.mpr hb (hok hp).2, fields_writeAll_manMove hneg hpos b _⟩

end

/-- Settles O29: pan is the move whose direction codes have the high bit 1. -/
theorem manPanWritesDirectionAndSpeed : Obligations.ManPanWritesDirectionAndSpeed :=
  ⟨encodedAs_manPan, fun _ _ hv => onlyIn_of_not_mem hv, fun v s hv =>
    ⟨fun hw hok => ⟨_, manMove_of_ok hv hw hok, keepsAllButFrame_withFrame s _ _,
      bit_writeAll_manMove true v s.frame⟩, manMove_of_tooFast hv⟩⟩

/-- Settles O30: tilt is the move whose direction codes have the high bit 0. -/
theorem manTiltWritesDirectionAndSpeed : Obligations.ManTiltWritesDirectionAndSpeed :=
  ⟨encodedAs_manTilt, fun _ _ hv => onlyIn_of_not_mem hv, fun v s hv =>
    ⟨fun hw hok => ⟨_, manMove_of_ok hv hw hok, keepsAllButFrame_withFrame s _ _,
      bit_writeAll_manMove false v s.frame⟩, manMove_of_tooFast hv⟩⟩

/-- Settles O31: the two orders are two moves with the direction codes of their axes. -/
theorem laterMoveReplacesTheEarlier : Obligations.LaterMoveReplacesTheEarlier := fun _ _ _ hv hw hok =>
  ⟨manMove_manMove hv hw hok DirCode.panLeft DirCode.panRight (by decide) (by decide),
    manMove_manMove hv hw hok DirCode.tiltDown DirCode.tiltUp (by decide) (by decide)⟩

/-! ### Zoom, focus and iris (R127-R130) -/

/-- Reading a bit after F3 was written alone (R65). -/
theorem Frame.bit_writeAll_manF3 (f : Frame) (code k : Nat) :
    (f.writeAll [manF3 code]).bit k = spanBits 9 3 code f.bit k :=
  f.bit_write (manF3 code) k

section
variable {s : State} {v : Int} {code : BitVec 3}

theorem manLens_zero (hv : s.variant = .manLens) (code : BitVec 3) :
    manLens code 0 s = .next (s.answer (.ok .empty)) :=
  onlyIn_of_mem (List.mem_singleton.mpr hv)

theorem manLens_of_ne_zero (hv : s.variant = .manLens) (hw : s.WidthOk) (h0 : v ≠ 0) :
    manLens code v s = .next ((s.withFrame (s.frame.writeAll [manF3 code.toNat])).answer (.ok .empty)) := by
  rw [manLens, onlyIn_of_mem (List.mem_singleton.mpr hv), if_neg h0,
    commit_of_isManchester (by rw [hv]; rfl) hw rfl]

/-- A lens setter that selects `c` where `p` holds and `d` elsewhere writes that code, and nothing for zero. -/
theorem manLens_writes {p : Prop} [Decidable p] {c d : BitVec 3} (hv : s.variant = .manLens) (hw : s.WidthOk)
    (hcode : v ≠ 0 → code = if p then c else d) :
    ∃ t, manLens code v s = .next t ∧ KeepsAllButFrame s t (.ok .empty) ∧
      ∀ k, t.frame.bit k =
        if v = 0 then s.frame.bit k
        else if p then spanBits 9 3 c.toNat s.frame.bit k else spanBits 9 3 d.toNat s.frame.bit k := by
  by_cases h0 : v = 0
  · subst h0
    exact ⟨_, manLens_zero hv code, keepsAllButFrame_withFrame s s.frame _, fun k => rfl⟩
  · refine ⟨_, manLens_of_ne_zero hv hw h0, keepsAllButFrame_withFrame s _ _, fun k => ?_⟩
    rw [State.answer_frame, State.withFrame_frame, Frame.bit_writeAll_manF3, if_neg h0, hcode h0]
    by_cases hp : p
    · rw [if_pos hp, if_pos hp]
    · rw [if_neg hp, if_neg hp]

/-- Focus to far exactly for a positive input where positive is far, and a negative one where positive is near
(R128). -/
theorem focusCode_of_ne_zero (c : Cfg) (h0 : v ≠ 0) : focusCode c v =
    if (0 < v ∧ c.focusPositive = .far) ∨ (v < 0 ∧ c.focusPositive = .near) then c.manLcFocusFar
    else c.manLcFocusNear := by
  rcases Int.lt_or_gt_of_ne h0 with hv | hv <;> cases hp : c.focusPositive <;>
    simp [focusCode, hp, hv, Int.lt_asymm hv]

/-- Iris to open exactly for a positive input where positive is open, and a negative one where positive is close
(R129). -/
theorem irisCode_of_ne_zero (c : Cfg) (h0 : v ≠ 0) : irisCode c v =
    if (0 < v ∧ c.irisPositive = .opening) ∨ (v < 0 ∧ c.irisPositive = .closing) then c.manLcIrisOpen
    else c.manLcIrisClose := by
  rcases Int.lt_or_gt_of_ne h0 with hv | hv <;> cases hp : c.irisPositive <;>
    simp [irisCode, hp, hv, Int.lt_asymm hv]

end

/-- Settles O32: the zoom code is chosen by the sign alone. -/
theorem manZoomWritesTheLensCode : Obligations.ManZoomWritesTheLensCode :=
  ⟨encodedAs_manZoom, fun _ _ hv => onlyIn_of_not_mem hv, fun _ _ hv hw => manLens_writes hv hw fun _ => rfl⟩

/-- Settles O33, by `focusCode_of_ne_zero`. -/
theorem manFocusWritesTheLensCode : Obligations.ManFocusWritesTheLensCode :=
  ⟨encodedAs_manFocus, fun _ _ hv => onlyIn_of_not_mem hv,
    fun _ s hv hw => manLens_writes hv hw (focusCode_of_ne_zero s.cfg)⟩

/-- Settles O34, by `irisCode_of_ne_zero`. -/
theorem manIrisWritesTheLensCode : Obligations.ManIrisWritesTheLensCode :=
  ⟨encodedAs_manIris, fun _ _ hv => onlyIn_of_not_mem hv,
    fun _ s hv hw => manLens_writes hv hw (irisCode_of_ne_zero s.cfg)⟩

theorem lensChoice_manZoom (c : Cfg) (v : Int) : lensChoice c (.manZoom v) =
    if v = 0 then none else some (if v > 0 then c.manLcZoomIn else c.manLcZoomOut) := by
  rw [lensChoice, apply_ite some]

theorem lensChoice_manFocus (c : Cfg) (v : Int) :
    lensChoice c (.manFocus v) = if v = 0 then none else some (focusCode c v) := by
  refine ite_congr rfl (fun _ => rfl) fun _ => ?_
  cases hp : c.focusPositive <;> by_cases hv : 0 < v <;> simp [focusCode, hp, hv]

theorem lensChoice_manIris (c : Cfg) (v : Int) :
    lensChoice c (.manIris v) = if v = 0 then none else some (irisCode c v) := by
  refine ite_congr rfl (fun _ => rfl) fun _ => ?_
  cases hp : c.irisPositive <;> by_cases hv : 0 < v <;> simp [irisCode, hp, hv]

/-- An operation that selects a lens code is a lens setter with that code and a nonzero input (R127-R129). -/
theorem exists_manLens_of_lensChoice {i : Instr} {c : BitVec 3} {s : State} (h : lensChoice s.cfg i = some c) :
    ∃ v : Int, v ≠ 0 ∧ exec i s = manLens c v s := by
  cases i with
  | manZoom v =>
    obtain ⟨h0, ⟨⟩⟩ := Option.ite_none_left_eq_some.mp ((lensChoice_manZoom _ v).symm.trans h)
    exact ⟨v, h0, rfl⟩
  | manFocus v =>
    obtain ⟨h0, ⟨⟩⟩ := Option.ite_none_left_eq_some.mp ((lensChoice_manFocus _ v).symm.trans h)
    exact ⟨v, h0, rfl⟩
  | manIris v =>
    obtain ⟨h0, ⟨⟩⟩ := Option.ite_none_left_eq_some.mp ((lensChoice_manIris _ v).symm.trans h)
    exact ⟨v, h0, rfl⟩
  | _ => cases h

/-- Such an operation writes its code to F3. -/
theorem exec_of_lensChoice {i : Instr} {c : BitVec 3} {s : State} (hv : s.variant = .manLens) (hw : s.WidthOk)
    (h : lensChoice s.cfg i = some c) :
    exec i s = .next ((s.withFrame (s.frame.writeAll [manF3 c.toNat])).answer (.ok .empty)) := by
  obtain ⟨v, h0, hexec⟩ := exists_manLens_of_lensChoice h
  exact hexec.trans (manLens_of_ne_zero hv hw h0)

theorem exec_zeroLens {z : Instr} (hz : z ∈ [Instr.manZoom 0, .manFocus 0, .manIris 0]) {s : State}
    (hv : s.variant = .manLens) : exec z s = .next (s.answer (.ok .empty)) := by
  simp only [List.mem_cons, List.not_mem_nil, or_false] at hz
  rcases hz with rfl | rfl | rfl <;> exact manLens_zero hv _

/-- Settles O35: each setter overwrites the whole of F3, and a zero input writes nothing. -/
theorem laterLensCodeReplacesTheEarlier : Obligations.LaterLensCodeReplacesTheEarlier := by
  intro i j c d s hv hw hi hj
  have hF3 : (s.frame.writeAll [manF3 c.toNat]).field 9 3 = c.toNat := s.frame.field_manF3 c.isLt
  exact ⟨_, exec_of_lensChoice hv hw hi, hF3, ⟨_, exec_of_lensChoice hv hw hj, Frame.field_manF3 _ d.isLt⟩,
    fun z hz => ⟨_, exec_zeroLens hz hv, hF3⟩⟩

/-! ### The auxiliary channels (R131, R132) -/

/-- The masks of R66, by channel. -/
theorem auxMask_of_mem : ∀ p ∈ [((1 : Int), 2), (2, 4), (3, 6), (4, 3), (5, 5), (6, 7)],
    1 ≤ p.1 ∧ p.1 ≤ 6 ∧ auxMask p.1.toNat = p.2 ∧ p.2 < 8 := by decide

theorem exec_manAux {ch : Int} {s : State} (hv : s.variant = .manAux) (hw : s.WidthOk) (h1 : 1 ≤ ch) (h6 : ch ≤ 6) :
    exec (.manAux ch) s =
      .next ((s.withFrame (s.frame.writeAll [manF3 (auxMask ch.toNat)])).answer (.ok .empty)) := by
  have hbad : badChannel ch = false := decide_eq_false (by omega)
  rw [exec, execManAux, onlyIn_of_mem (List.mem_singleton.mpr hv), hbad, rejectIf_false,
    commit_of_isManchester (by rw [hv]; rfl) hw rfl]

/-- Settles O36: a channel of the table writes its mask to F3, and any other is rejected. -/
theorem manAuxWritesTheMask : Obligations.ManAuxWritesTheMask := by
  refine ⟨encodedAs_manAux, fun _ _ hv => onlyIn_of_not_mem hv, fun s hv hw p hp => ?_, fun ch s hv hch => ?_⟩
  · obtain ⟨h1, h6, hmask, -⟩ := auxMask_of_mem p hp
    refine ⟨_, exec_manAux hv hw h1 h6, keepsAllButFrame_withFrame s _ _, fun k => ?_⟩
    rw [State.answer_frame, State.withFrame_frame, hmask, Frame.bit_writeAll_manF3]
  · have hbad : badChannel ch = true := decide_eq_true hch
    rw [exec, execManAux, onlyIn_of_mem (List.mem_singleton.mpr hv), hbad, rejectIf_true]

/-- Settles O37: both masks are written to the same three bits, so nothing of the first is left. -/
theorem laterChannelReplacesTheEarlier : Obligations.LaterChannelReplacesTheEarlier := by
  intro a s hv hw ha1 ha6 p hp
  obtain ⟨h1, h6, hmask, hlt⟩ := auxMask_of_mem p hp
  refine ⟨_, _, _, exec_manAux hv hw ha1 ha6, keepsAllButFrame_withFrame s _ _, exec_manAux hv hw h1 h6,
    keepsAllButFrame_withFrame _ _ _, ?_, exec_manAux hv hw h1 h6, fun k => ?_⟩
  · rw [hmask]; exact Frame.field_manF3 _ hlt
  · simp only [State.answer_frame, State.withFrame_frame, Frame.bit_writeAll_manF3, spanBits]
    by_cases hk : 9 ≤ k ∧ k < 9 + 3
    · rw [if_pos hk, if_pos hk]
    · rw [if_neg hk, if_neg hk, if_neg hk]

end Sys2Proof.Machine

/-! PROOFS of 42_vicon.md: the Vicon encoder (R150-R164). A new frame is the flags it is made with; a setter is run once
(`exec_vicRecv`, `vicSet_of_fits`, `vicMove_of_vicCmd`, `vicMove_of_vicSpeed`, `exec_vicAux`), and every statement reads
the frame its writes leave. A legal CFG gives a command frame at least 31 bits (R7), which is room for every direction
flag. -/

namespace Sys2Proof.Machine

/-! ### The frames made (R150-R152) -/

theorem firstUnfit_of_le {w w' : Nat} {ds : List Descriptor} (hle : w ≤ w') (h : firstUnfit w ds = none) :
    firstUnfit w' ds = none :=
  firstUnfit_eq_none.mpr fun d hd => Nat.le_trans (firstUnfit_eq_none.mp h d hd) hle

theorem Frame.bit_writeAll_flags (is : List Nat) (f : Frame) (k : Nat) :
    (f.writeAll (is.map (flagField · true))).bit k = (decide (k ∈ is) || f.bit k) := by
  induction is generalizing f with
  | nil => simp
  | cons i is ih =>
    rw [List.map_cons, Frame.writeAll_cons, ih, Frame.bit_write_flagField]
    by_cases h : k = i <;> simp [h]

/-- A new frame whose fixed bits are flags that fit holds those flags and nothing else (R28). -/
theorem newFrame_flags_makes (v : Variant) {w : Nat} (is : List Nat) (s : State)
    (hfit : firstUnfit w (is.map (flagField · true)) = none) :
    ∃ t, newFrame v w (is.map (flagField · true)) s = .next t ∧ HoldsNewFrame s t v w ∧
      ∀ k, t.frame.bit k = decide (k ∈ is) :=
  ⟨_, newFrame_of_fits hfit, holdsNewFrame_hold s v w _, fun k =>
    (Frame.bit_writeAll_flags is Frame.zeros k).trans (Bool.or_false _)⟩

/-- Settles O40: the sync flag alone fits 16 bits. -/
theorem vicNewStatusMakesItsFrame : Obligations.VicNewStatusMakesItsFrame := by
  refine ⟨encodedAs_vicNewStatus, fun s => ?_⟩
  obtain ⟨t, hexec, hheld, hbits⟩ := newFrame_flags_makes .vicStatus (w := 16) [7] s rfl
  exact ⟨t, hexec, hheld, by simpa using hbits⟩

/-- Settles O41: the flags 7 and 12 fit a legal VIC_CMD_BITS. -/
theorem vicNewCmdMakesItsFrame : Obligations.VicNewCmdMakesItsFrame := by
  refine ⟨encodedAs_vicNewCmd, fun s ⟨_, _, _, _, hcmd, _⟩ => ?_⟩
  obtain ⟨t, hexec, hheld, hbits⟩ := newFrame_flags_makes .vicCmd [7, 12] s (firstUnfit_of_le hcmd rfl)
  exact ⟨t, hexec, hheld, by simpa using hbits⟩

/-- Settles O42: the flags 7, 12 and 14 fit a legal VIC_SPEED_BITS. -/
theorem vicNewSpeedMakesItsFrame : Obligations.VicNewSpeedMakesItsFrame := by
  refine ⟨encodedAs_vicNewSpeed, fun s ⟨_, _, _, _, _, hspeed, _⟩ => ?_⟩
  obtain ⟨t, hexec, hheld, hbits⟩ := newFrame_flags_makes .vicSpeed [7, 12, 14] s (firstUnfit_of_le hspeed rfl)
  exact ⟨t, hexec, hheld, by simpa using hbits⟩

/-! ### The width of a Vicon frame (R7, R22) -/

theorem mem_of_isVicon : ∀ {v : Variant}, v.isVicon = true → v ∈ [Variant.vicStatus, .vicCmd, .vicSpeed]
  | .vicStatus, _ | .vicCmd, _ | .vicSpeed, _ => by decide

theorem mem_of_isViconCommand : ∀ {v : Variant}, v.isViconCommand = true → v ∈ [Variant.vicCmd, .vicSpeed]
  | .vicCmd, _ | .vicSpeed, _ => by decide

section
variable {s : State}

theorem width_of_frameWidth {v : Variant} {w : Nat} (hv : s.variant = v) (hw : s.WidthOk)
    (h : Cfg.frameWidth s.cfg v = some w) : s.width = w := by
  rw [State.WidthOk, hv, h] at hw
  simpa [eq_comm] using hw

theorem width_of_isViconCommand (hv : s.variant.isViconCommand = true) (hs : s.Sized) : 31 ≤ s.width := by
  obtain ⟨⟨-, -, -, -, hcmd, hspeed, -⟩, hw⟩ := hs
  rcases List.mem_pair.mp (mem_of_isViconCommand hv) with h | h
  · rwa [width_of_frameWidth h hw rfl]
  · rwa [width_of_frameWidth h hw rfl]

theorem width_of_isVicon (hv : s.variant.isVicon = true) (hs : s.Sized) : 16 ≤ s.width := by
  rcases List.mem_cons.mp (mem_of_isVicon hv) with h | h
  · rw [width_of_frameWidth h hs.2 rfl]
  · exact Nat.le_trans (by decide) (width_of_isViconCommand (isViconCommand_of_mem h) hs)

end

/-! ### The receiver (R153) -/

/-- Each bit of the receiver's nibbles is a bit of `r`: r[7:4] at 0, r[3:0] at 8 (R68). -/
theorem Frame.bit_writeAll_vicReceiver (f : Frame) (r k : Nat) : (f.writeAll (vicReceiverFields r)).bit k =
    if k < 4 then r.testBit (4 + k)
    else if 8 ≤ k ∧ k < 12 then r.testBit (k - 8)
    else f.bit k := by
  simp only [vicReceiverFields, Frame.writeAll_cons, Frame.writeAll_nil, Frame.bit_write]
  by_cases hRLN : 8 ≤ k ∧ k < 8 + 4
  · rw [if_pos hRLN, if_neg (by omega), if_pos hRLN, Nat.and_two_pow_sub_one_eq_mod _ 4, Nat.testBit_mod_two_pow,
      decide_eq_true (by omega), Bool.true_and]
  · rw [if_neg hRLN, if_neg hRLN, Nat.testBit_shiftRight, Nat.sub_zero]
    simp

/-- The nibbles of a receiver read back as the receiver (R72). -/
theorem vicReceiver_writeAll (f : Frame) {r : Nat} (hr : r < 256) :
    vicReceiver (f.writeAll (vicReceiverFields r)) = r := by
  have hRHN : (f.writeAll (vicReceiverFields r)).field 0 4 = r / 16 % 16 := by
    simp only [vicReceiverFields, Frame.writeAll_cons, Frame.writeAll_nil]
    rw [Frame.field_write_of_disjoint _ _ (by simp), ← Nat.shiftRight_eq_div_pow r 4]
    exact Frame.field_write_same f ⟨0, 4, _⟩
  have hRLN : (f.writeAll (vicReceiverFields r)).field 8 4 = r % 16 := by
    refine (Frame.field_write_same _ ⟨8, 4, r &&& 0xF⟩).trans ?_
    rw [Nat.and_two_pow_sub_one_eq_mod _ 4, Nat.mod_mod]
  rw [vicReceiver, shiftLeft_or_eq (Frame.field_lt _ 8 4), hRHN, hRLN]
  omega

/-- `VIC.RECV r` with `r` in 1..255 commits the nibbles of `r`, which is not offset (R153). -/
theorem exec_vicRecv {s : State} {r : Int} (hv : s.variant.isVicon = true) (hs : s.Sized) (h1 : 1 ≤ r)
    (h255 : r ≤ 255) : exec (.vicRecv r) s =
      .next ((s.withFrame (s.frame.writeAll (vicReceiverFields r.toNat))).answer (.ok .empty)) := by
  have hbad : badReceiver r = false := decide_eq_false (by omega)
  rw [exec, execVicRecv, onlyIn_of_mem (mem_of_isVicon hv), hbad, rejectIf_false,
    commit_of_fits (firstUnfit_of_le (width_of_isVicon hv hs) rfl)]

/-- Settles O43: a receiver in 1..255 is written by `exec_vicRecv`; any other is rejected before anything is
written. -/
theorem vicRecvWritesTheReceiver : Obligations.VicRecvWritesTheReceiver := by
  refine ⟨encodedAs_vicRecv, fun r s hv => onlyIn_of_not_mem hv, fun r s hv => ⟨fun hs h1 h255 => ?_, fun hr => ?_⟩⟩
  · exact ⟨_, exec_vicRecv hv hs h1 h255, keepsAllButFrame_withFrame s _ _, vicReceiver_writeAll _ (by omega),
      s.frame.bit_writeAll_vicReceiver r.toNat⟩
  · have hbad : badReceiver r = true := decide_eq_true hr
    rw [exec, execVicRecv, onlyIn_of_mem (mem_of_isVicon hv), hbad, rejectIf_true]

/-! ### The setters that check no operand (R157-R162) -/

section
variable {s : State} {neg pos : Nat}

/-- A setter whose descriptors fit 31 bits writes them to any command frame. -/
theorem vicSet_of_fits {ds : List Descriptor} (hv : s.variant.isViconCommand = true) (hs : s.Sized)
    (hfit : firstUnfit 31 ds = none) :
    vicSet ds s = .next ((s.withFrame (s.frame.writeAll ds)).answer (.ok .empty)) := by
  rw [vicSet, onlyIn_of_mem (mem_of_isViconCommand hv),
    commit_of_fits (firstUnfit_of_le (width_of_isViconCommand hv hs) hfit)]

theorem IsDirectionPair.fits (hp : IsDirectionPair neg pos) (v : Int) : firstUnfit 31 (pair neg pos v) = none := by
  obtain ⟨-, hneg, hpos⟩ := hp.flags
  exact firstUnfit_pair (by omega) (by omega)

theorem vicSet_pair_writes (hp : IsDirectionPair neg pos) (v : Int) (hv : s.variant.isViconCommand = true)
    (hs : s.Sized) : ∃ t, vicSet (pair neg pos v) s = .next t ∧ KeepsAllButFrame s t (.ok .empty) ∧
      ∀ k, t.frame.bit k = pairBits neg pos v s.frame.bit k :=
  ⟨_, vicSet_of_fits hv hs (hp.fits v), keepsAllButFrame_withFrame s _ _, Frame.bit_writeAll_pair hp.flags.1 v s.frame⟩

theorem vicSet_flag_writes {i : Nat} (hi : i < 31) (b : Bool) (hv : s.variant.isViconCommand = true) (hs : s.Sized) :
    ∃ t, vicSet [flagField i b] s = .next t ∧ KeepsAllButFrame s t (.ok .empty) ∧
      ∀ k, t.frame.bit k = if k = i then b else s.frame.bit k :=
  ⟨_, vicSet_of_fits hv hs (firstUnfit_eq_none.mpr (List.forall_mem_singleton.mpr hi)),
    keepsAllButFrame_withFrame s _ _, fun k => s.frame.bit_write_flagField i k b⟩

end

/-- Settles O46: zoom commits its pair. -/
theorem vicZoomWritesItsPair : Obligations.VicZoomWritesItsPair :=
  ⟨encodedAs_vicZoom, fun _ _ hv => onlyIn_of_not_mem hv, fun v _ hv hs => vicSet_pair_writes (by decide) v hv hs⟩

/-- Settles O47: IRIS_POSITIVE chooses the order in which iris commits its pair. -/
theorem vicIrisWritesItsPair : Obligations.VicIrisWritesItsPair := by
  refine ⟨encodedAs_vicIris, fun v s hv => ?_, fun v s hv hs => ?_⟩
  · rw [exec, execVicIris]
    split <;> exact onlyIn_of_not_mem hv
  · rw [exec, execVicIris]
    cases s.cfg.irisPositive with
    | opening => exact vicSet_pair_writes (by decide) v hv hs
    | closing => exact vicSet_pair_writes (by decide) v hv hs

/-- Settles O48: FOCUS_POSITIVE chooses the order in which focus commits its pair. -/
theorem vicFocusWritesItsPair : Obligations.VicFocusWritesItsPair := by
  refine ⟨encodedAs_vicFocus, fun v s hv => ?_, fun v s hv hs => ?_⟩
  · rw [exec, execVicFocus]
    split <;> exact onlyIn_of_not_mem hv
  · rw [exec, execVicFocus]
    cases s.cfg.focusPositive with
    | far => exact vicSet_pair_writes (by decide) v hv hs
    | near => exact vicSet_pair_writes (by decide) v hv hs

/-- Settles O49: each of the three commits its one flag. -/
theorem viconBooleansWriteTheirFlag : Obligations.ViconBooleansWriteTheirFlag :=
  ⟨⟨encodedAs_vicAutoIris, encodedAs_vicAutoPan, encodedAs_vicLensSpeed⟩,
    fun _ => ⟨fun _ hv => onlyIn_of_not_mem hv, fun _ hv => onlyIn_of_not_mem hv, fun _ hv => onlyIn_of_not_mem hv⟩,
    fun b _ hv hs => ⟨vicSet_flag_writes (by decide) b hv hs, vicSet_flag_writes (by decide) b hv hs,
      vicSet_flag_writes (by decide) b hv hs⟩⟩

/-! ### The auxiliary channels (R163) -/

/-- `VIC.AUX` with a channel in 1..6 commits the one flag at `32 + ch`. -/
theorem exec_vicAux {s : State} {ch : Int} (b : Bool) (hv : s.variant.isViconCommand = true) (h1 : 1 ≤ ch)
    (h6 : ch ≤ 6) : exec (.vicAux ch b) s = commit [flagField (32 + ch.toNat) b] s := by
  have hbad : badChannel ch = false := decide_eq_false (by omega)
  rw [exec, execVicAux, onlyIn_of_mem (mem_of_isViconCommand hv), hbad, rejectIf_false, FlagAt.aux]

/-- Settles O50: a legal CFG need not make room for every channel, so the span `(32 + ch, 1)` may fail. -/
theorem vicAuxWritesItsFlag : Obligations.VicAuxWritesItsFlag := by
  refine ⟨encodedAs_vicAux, fun ch b s hv => onlyIn_of_not_mem hv, fun ch b s hv =>
    ⟨fun hch => ?_, fun h1 h6 hw => ?_, fun h1 h6 hw => ?_⟩⟩
  · have hbad : badChannel ch = true := decide_eq_true hch
    rw [exec, execVicAux, onlyIn_of_mem (mem_of_isViconCommand hv), hbad, rejectIf_true]
  · exact (exec_vicAux b hv h1 h6).trans (commit_one_of_unfit (Nat.lt_succ_of_le hw))
  · exact ⟨_, (exec_vicAux b hv h1 h6).trans (commit_one_of_fits hw), keepsAllButFrame_withFrame s _ _,
      fun k => s.frame.bit_write_flagField _ k b⟩

/-! ### Pan and tilt (R155, R156, R164) -/

section
variable {s : State} {v : Int} {neg pos hi lo : Nat}

/-- In a Command frame a move is its direction pair alone. -/
theorem vicMove_of_vicCmd (hp : IsDirectionPair neg pos) (v : Int) (hv : s.variant = .vicCmd) (hs : s.Sized) :
    vicMove neg pos hi lo v s =
      .next ((s.withFrame (s.frame.writeAll (pair neg pos v))).answer (.ok .empty)) := by
  have hcmd : s.variant.isViconCommand = true := by rw [hv]; rfl
  rw [← vicSet_of_fits hcmd hs (hp.fits v), vicMove, vicSet, if_neg (by rw [hv]; decide)]

theorem vicMove_vicCmd_writes (hp : IsDirectionPair neg pos) (v : Int) (hv : s.variant = .vicCmd) (hs : s.Sized) :
    ∃ t, vicMove neg pos hi lo v s = .next t ∧ KeepsAllButFrame s t (.ok .empty) ∧
      ∀ k, t.frame.bit k = pairBits neg pos v s.frame.bit k :=
  ⟨_, vicMove_of_vicCmd hp v hv hs, keepsAllButFrame_withFrame s _ _, Frame.bit_writeAll_pair hp.flags.1 v s.frame⟩

/-- The high nibble of a speed is above 15 exactly when the speed is above 2047 (R70). -/
theorem badVicSpeed_eq (c : Cfg) (v : Int) : badVicSpeed c v = decide (c.rangePolicy = .strict ∧ 2047 < v.natAbs) := by
  rw [badVicSpeed, Nat.shiftRight_eq_div_pow]
  exact decide_eq_decide.mpr (and_congr_right fun _ => by omega)

theorem vicMove_of_tooFast (hv : s.variant = .vicSpeed) (hpolicy : s.cfg.rangePolicy = .strict)
    (hspeed : 2047 < v.natAbs) : vicMove neg pos hi lo v s = .next (s.answer (.error (.rangeError v))) := by
  rw [vicMove, onlyIn_of_mem (by rw [hv]; decide), if_pos hv, badVicSpeed_eq, decide_eq_true ⟨hpolicy, hspeed⟩,
    rejectIf_true]

/-- In a SpeedCommand frame a move commits its pair and its speed together. -/
theorem vicMove_of_vicSpeed (hv : s.variant = .vicSpeed)
    (hok : ¬ (s.cfg.rangePolicy = .strict ∧ 2047 < v.natAbs)) :
    vicMove neg pos hi lo v s = commit (pair neg pos v ++ vicSpeedFields hi lo v) s := by
  rw [vicMove, onlyIn_of_mem (by rw [hv]; decide), if_pos hv, badVicSpeed_eq, decide_eq_false hok, rejectIf_false]

/-- Two spans that do not overlap may be written in either order (R42). -/
theorem spanBits_comm {a m b n : Nat} (h : a + m ≤ b) (x y : Nat) (old : Nat → Bool) (k : Nat) :
    spanBits b n y (spanBits a m x old) k = spanBits a m x (spanBits b n y old) k := by
  unfold spanBits
  by_cases hb : b ≤ k ∧ k < b + n
  · rw [if_pos hb, if_neg (by omega), if_pos hb]
  · rw [if_neg hb, if_neg hb]

/-- The frame a move leaves: the pair by its sign, the speed cut in `abs(v) >> 7` and `abs(v) & 0x7F` (R70). -/
theorem Frame.bit_writeAll_vicMove (f : Frame) (hp : IsDirectionPair neg pos) (hlo : hi + 4 ≤ lo) (v : Int) (k : Nat) :
    (f.writeAll (pair neg pos v ++ vicSpeedFields hi lo v)).bit k =
      spanBits hi 4 (v.natAbs / 128 % 16) (spanBits lo 7 (v.natAbs % 128) (pairBits neg pos v f.bit)) k := by
  have hpair : (f.writeAll (pair neg pos v)).bit = pairBits neg pos v f.bit :=
    funext (Frame.bit_writeAll_pair hp.flags.1 v f)
  rw [← spanBits_comm hlo, ← hpair, Frame.writeAll_append, vicSpeedFields, Nat.shiftRight_eq_div_pow,
    Nat.and_two_pow_sub_one_eq_mod _ 7]
  simp only [Frame.writeAll_cons, Frame.writeAll_nil, Frame.bit_write, spanBits]

/-- A move in a SpeedCommand frame: its pair always fits, so the first speed field that VIC_SPEED_BITS cuts off is
reported, and where both fit the direction and the speed are written. -/
theorem vicMove_vicSpeed_writes (hp : IsDirectionPair neg pos) (hlo : hi + 4 ≤ lo) (hv : s.variant = .vicSpeed)
    (hs : s.Sized) (hok : ¬ (s.cfg.rangePolicy = .strict ∧ 2047 < v.natAbs)) :
    if s.cfg.vicSpeedBits < hi + 4 then
      vicMove neg pos hi lo v s = .next (s.answer (.error (.outOfRange hi 4)))
    else if s.cfg.vicSpeedBits < lo + 7 then
      vicMove neg pos hi lo v s = .next (s.answer (.error (.outOfRange lo 7)))
    else ∃ t, vicMove neg pos hi lo v s = .next t ∧ KeepsAllButFrame s t (.ok .empty) ∧
      ∀ k, t.frame.bit k =
        spanBits hi 4 (v.natAbs / 128 % 16) (spanBits lo 7 (v.natAbs % 128) (pairBits neg pos v s.frame.bit)) k := by
  have hpair : firstUnfit s.width (pair neg pos v) = none :=
    firstUnfit_of_le (width_of_isViconCommand (by rw [hv]; rfl) hs) (hp.fits v)
  have hcheck := firstUnfit_append_of_fits (es := vicSpeedFields hi lo v) hpair
  simp only [vicSpeedFields, firstUnfit_cons, firstUnfit_nil] at hcheck
  rw [vicMove_of_vicSpeed hv hok, ← width_of_frameWidth hv hs.2 rfl]
  split
  next h => exact commit_of_unfit (hcheck.trans (if_neg (Nat.not_le.mpr h)))
  next h =>
    rw [if_pos (Nat.le_of_not_lt h)] at hcheck
    split
    next h' => exact commit_of_unfit (hcheck.trans (if_neg (Nat.not_le.mpr h')))
    next h' =>
      exact ⟨_, commit_of_fits (hcheck.trans (if_pos (Nat.le_of_not_lt h'))), keepsAllButFrame_withFrame s _ _,
        s.frame.bit_writeAll_vicMove hp hlo v⟩

end

/-- Settles O44: pan is the move of the pair (22, 21) with its speed at 48 and 56. -/
theorem vicPanWritesDirectionAndSpeed : Obligations.VicPanWritesDirectionAndSpeed :=
  ⟨encodedAs_vicPan, fun _ _ hv => onlyIn_of_not_mem hv, fun v _ hs =>
    ⟨fun hv => vicMove_vicCmd_writes (by decide) v hv hs, vicMove_of_tooFast,
      fun hv hok => vicMove_vicSpeed_writes (by decide) (by decide) hv hs hok⟩⟩

/-- Settles O45: tilt is the move of the pair (19, 20) with its speed at 64 and 72. -/
theorem vicTiltWritesDirectionAndSpeed : Obligations.VicTiltWritesDirectionAndSpeed :=
  ⟨encodedAs_vicTilt, fun _ _ hv => onlyIn_of_not_mem hv, fun v _ hs =>
    ⟨fun hv => vicMove_vicCmd_writes (by decide) v hv hs, vicMove_of_tooFast,
      fun hv hok => vicMove_vicSpeed_writes (by decide) (by decide) hv hs hok⟩⟩

/-- Settles O51: a move by zero gives both flags of its pair the value 0, whatever they held. -/
theorem zeroPanClearsThePair : Obligations.ZeroPanClearsThePair := fun v s hv hs =>
  have hpan : IsDirectionPair FlagAt.panLeft FlagAt.panRight := by decide
  ⟨_, _, vicMove_of_vicCmd hpan v hv hs, vicMove_of_vicCmd hpan 0 hv hs, Frame.bit_writeAll_pair hpan.flags.1 0 _ 22,
    Frame.bit_writeAll_pair hpan.flags.1 0 _ 21⟩

end Sys2Proof.Machine

/-! PROOFS of 60_exceptions.md: what a word is answered with (R180-R187), what the run of a word list gives (R196), and
what the reads observe (R193). `Answered` says once how an operation ends: with the error `errorOf` names and the state
as it was, or with `OK` and the data of its kind. -/

namespace Sys2Proof.Machine

/-! ### Words and the port (R185, R196) -/

theorem serve_of_error {w : OpWord} {e : DecodeError} (h : decode w = .error e) (s : State) :
    serve w s = .next (s.answer (.error (.illegalOp (opOf w)))) :=
  serve_of_not_decoded (fun _ hi => nomatch h.symm.trans hi) s

/-- Settles O8: the word is taken, and serving it adds the one response. -/
theorem stepAnswersIllegalWords : Obligations.StepAnswersIllegalWords :=
  fun _ _ _ _ hreq hdec => (step_cons hreq).trans (serve_of_error hdec _)

/-- Settles O9: with a word to take the step serves it, and every word is answered. -/
theorem stepFaultsExactlyAtTheEndOfTheRun : Obligations.StepFaultsExactlyAtTheEndOfTheRun := by
  refine fun s => ⟨step_nil, fun hne => ?_⟩
  obtain ⟨w, rest, hreq⟩ := List.exists_cons_of_ne_nil hne
  obtain ⟨t, r, hnext, -⟩ := (serve_answers w { s with requests := rest }).next
  exact ⟨t, (step_cons hreq).trans hnext⟩

/-! ### The run (R31, R196) -/

/-- Step `k` of the run from `s` serves word `k` of `ws`, with the words after it still to come, and gives response `k`
of `rs`. -/
def ServesInOrder (s : State) (ws : List OpWord) (rs : List Response) : Prop :=
  ∀ (k : Nat) (h : k < ws.length), ∃ (u v : State) (r : Response),
    Host.Core.run Sys2Proof.core k s = .next u ∧ Host.Core.run Sys2Proof.core (k + 1) s = .next v ∧
      serve ws[k] { u with requests := ws.drop (k + 1) } = .next v ∧
      v.responses = u.responses ++ [r] ∧ rs[k]? = some r

section
variable {s t : State} {w : OpWord} {ws : List OpWord} {r : Response} {rs : List Response}

theorem run_cons (hreq : s.requests = w :: ws) (hserve : serve w { s with requests := ws } = .next t) (k : Nat) :
    Host.Core.run Sys2Proof.core (k + 1) s = Host.Core.run Sys2Proof.core k t :=
  run_succ Sys2Proof.core k s t ((step_cons hreq).trans hserve)

/-- The first word's step goes before those of the run from the state it leads to. -/
theorem ServesInOrder.cons (hreq : s.requests = w :: ws) (hserve : serve w { s with requests := ws } = .next t)
    (hresp : t.responses = s.responses ++ [r]) (h : ServesInOrder t ws rs) : ServesInOrder s (w :: ws) (r :: rs)
  | 0, _ => ⟨s, t, r, rfl, run_cons hreq hserve 0, hserve, hresp, rfl⟩
  | k + 1, hk => by
    obtain ⟨u, v, q, hu, hv, hrest⟩ := h k (Nat.lt_of_succ_lt_succ hk)
    exact ⟨u, v, q, (run_cons hreq hserve k).trans hu, (run_cons hreq hserve (k + 1)).trans hv, hrest⟩

end

/-- The run of a word list, by induction over the words: each is served in turn and adds its response. -/
theorem run_requests (ws : List OpWord) (s : State) (hreq : s.requests = ws) :
    ∃ t rs, Host.Core.run Sys2Proof.core ws.length s = .next t ∧ t.requests = [] ∧
      t.responses = s.responses ++ rs ∧ rs.length = ws.length ∧ t.cfg = s.cfg ∧ ServesInOrder s ws rs := by
  induction ws generalizing s with
  | nil => exact ⟨s, [], rfl, hreq, (List.append_nil _).symm, rfl, rfl, fun k hk => absurd hk (Nat.not_lt_zero k)⟩
  | cons w ws ih =>
    obtain ⟨s', r, hserve, hresp, hcfg, hrest⟩ := (serve_answers w { s with requests := ws }).next
    obtain ⟨t, rs, hrun, hdone, hresps, hlen, hcfg', horder⟩ := ih s' hrest
    refine ⟨t, r :: rs, (run_cons hreq hserve ws.length).trans hrun, hdone, ?_, congrArg (· + 1) hlen,
      hcfg'.trans hcfg, horder.cons hreq hserve hresp⟩
    rw [hresps, hresp, List.append_assoc, List.singleton_append]

/-- Settles O15: `run_requests`, and a step with no word left. -/
theorem runAnswersEveryWordOnce : Obligations.RunAnswersEveryWordOnce := by
  intro s
  obtain ⟨t, rs, hrun, hdone, hresp, hlen, hcfg, horder⟩ := run_requests s.requests s rfl
  exact ⟨t, rs, hrun, hdone, hresp, hlen, hcfg, step_nil hdone, horder⟩

/-! ### Errors change nothing (R186) -/

/-- An answer whose response is an error is the response alone: writes and new frames answer `OK`. -/
theorem AnswersFrom.eq_answer_error {s t : State} {e : OpError} (h : AnswersFrom s (.next t))
    (hresp : t.responses = s.responses ++ [.error e]) : t = s.answer (.error e) := by
  cases h with
  | only r =>
    obtain rfl : r = .error e := by simpa using hresp
    rfl
  | wrote ds fit => simp at hresp
  | made v w ds fit => simp at hresp

/-- Settles O12: the state after an error differs from the one before in the port alone, which no operation reads. -/
theorem errorsChangeNoState : Obligations.ErrorsChangeNoState := by
  intro s t w e hserve hresp
  obtain rfl := (hserve ▸ serve_answers w s).eq_answer_error hresp
  refine ⟨⟨rfl, rfl, rfl, rfl, rfl⟩, rfl, fun i => ?_⟩
  obtain ⟨u, r, hu, hur, hv⟩ := responsesAreNeverRead i s (s.responses ++ [.error e]) s.requests
  exact ⟨u, _, r, hu, hur, hv, rfl, rfl, rfl, rfl⟩

/-! ### How an operation ends (R180-R184, R187) -/

/-- The data of an `OK` response to `i` (R180). -/
def OkData (i : Instr) (s : State) (d : RespData) : Prop :=
  match i with
  | .bbGet _ => ∃ b, d = .bit b
  | .bbOctets => ∃ bs, d = .octets bs ∧ bs.length = (s.width + 7) / 8
  | .frameInfo => d = .info s.variant.code s.width
  | _ => d = .empty

/-- An operation ends with an error and the state as it was, or with `OK` and data that `data` allows. In a sized state
the error is `err`, and there is none where `err` is none. -/
inductive Answered (s : State) (data : RespData → Prop) (err : Option OpError) : Answer → Prop where
  | error (e : OpError) (he : s.Sized → err = some e) : Answered s data err (.next (s.answer (.error e)))
  | ok {t : State} {d : RespData} (hd : data d) (he : s.Sized → err = none)
      (ht : t.responses = s.responses := by rfl) : Answered s data err (.next (t.answer (.ok d)))

/-- The error of a span that is out of range (R181, R183). -/
def Descriptor.spanError (d : Descriptor) : OpError := .outOfRange d.first d.count

/-- The variant check of an operation accepted in `vs` (R184). -/
def wrongVariantUnless (vs : List Variant) (s : State) : Option OpError :=
  if s.variant ∈ vs then none else some (.wrongVariant s.variant.code)

section
variable {s : State} {data : RespData → Prop} {err : Option OpError} {k : Answer}

theorem onlyIn_answered {vs : List Variant} (h : s.variant ∈ vs → Answered s data err k) :
    Answered s data ((wrongVariantUnless vs s).or err) (onlyIn vs s k) := by
  by_cases hm : s.variant ∈ vs
  · rw [onlyIn_of_mem hm, wrongVariantUnless, if_pos hm]; exact h hm
  · rw [onlyIn_of_not_mem hm, wrongVariantUnless, if_neg hm]; exact .error _ fun _ => rfl

/-- The operand check, where `rangeErr` is what the tables give for the operand. -/
theorem rejectIf_answered {bad : Bool} {v : Int} {rangeErr : Option OpError}
    (hr : rangeErr = if bad then some (.rangeError v) else none) (h : Answered s data err k) :
    Answered s data (rangeErr.or err) (rejectIf bad v s k) := by
  subst hr
  cases bad
  · exact h
  · exact .error _ fun _ => rfl

theorem commit_answered {ds : List Descriptor} (h : s.Sized → err = (firstUnfit s.width ds).map Descriptor.spanError) :
    Answered s (· = .empty) err (commit ds s) := by
  cases fit : firstUnfit s.width ds with
  | none => rw [commit_of_fits fit]; exact .ok rfl fun hs => by rw [h hs, fit]; rfl
  | some d => rw [commit_of_unfit fit]; exact .error _ fun hs => by rw [h hs, fit]; rfl

theorem commit_answered_of_fits {ds : List Descriptor} (h : s.Sized → firstUnfit s.width ds = none) :
    Answered s (· = .empty) none (commit ds s) :=
  commit_answered fun hs => by rw [h hs]; rfl

/-- A Manchester setter whose descriptors fit 24 bits cannot be out of range. -/
theorem commit_answered_of_isManchester {ds : List Descriptor} (hv : s.variant.isManchester = true)
    (hfit : firstUnfit 24 ds = none) : Answered s (· = .empty) none (commit ds s) :=
  commit_answered_of_fits fun hs => by rwa [width_of_isManchester hv hs.2]

theorem newFrame_answered {v : Variant} {w : Nat} {ds : List Descriptor} (h : s.Sized → firstUnfit w ds = none) :
    Answered s (· = .empty) none (newFrame v w ds s) := by
  cases fit : firstUnfit w ds with
  | none => rw [newFrame_of_fits fit]; exact .ok rfl fun _ => rfl
  | some d =>
    rw [newFrame_of_unfit fit]
    exact .error _ fun hs => by rw [h hs] at fit; cases fit

theorem commit_one_answered (d : Descriptor) :
    Answered s (· = .empty) (if s.width < d.first + d.count then some d.spanError else none) (commit [d] s) := by
  by_cases h : s.width < d.first + d.count
  · rw [if_pos h, commit_one_of_unfit h]; exact .error _ fun _ => rfl
  · rw [if_neg h, commit_one_of_fits (Nat.le_of_not_lt h)]; exact .ok rfl fun _ => rfl

/-- A flag is out of range exactly from WIDTH on (R43). -/
theorem commit_flagField_answered (i : Nat) (b : Bool) :
    Answered s (· = .empty) (if s.width ≤ i then some (.outOfRange i 1) else none) (commit [flagField i b] s) := by
  simpa only [flagField, Descriptor.spanError, Nat.lt_succ_iff] using commit_one_answered (flagField i b)

/-- The tables of R182 say which operands are accepted, and the operations check which are not. -/
theorem ite_accepted_eq_ite_rejected (lo hi x : Int) (e : OpError) :
    (if lo ≤ x ∧ x ≤ hi then none else some e) = if decide (x < lo ∨ x > hi) then some e else none := by
  by_cases h : lo ≤ x ∧ x ≤ hi
  · rw [if_pos h, if_neg (by rw [decide_eq_true_eq]; omega)]
  · rw [if_neg h, if_pos (by rw [decide_eq_true_eq]; omega)]

theorem newManchester_answered (v : Variant) (disc : BitVec 1) {ds : List Descriptor} (h : firstUnfit 24 ds = none) :
    Answered s (· = .empty) none (newManchester v disc ds s) := by
  rw [newManchester_of_fits v disc ds s h]
  exact .ok rfl fun _ => rfl

theorem manMove_answered (neg pos : Nat) (v : Int) :
    Answered s (· = .empty)
      ((wrongVariantUnless [.manPt] s).or
        ((if s.cfg.rangePolicy = .strict ∧ 7 < v.natAbs then some (.rangeError v) else none).or none))
      (manMove neg pos v s) := by
  refine onlyIn_answered fun hm => rejectIf_answered (by simp [badManSpeed]) ?_
  refine commit_answered_of_isManchester (List.mem_singleton.mp hm ▸ rfl) ?_
  exact firstUnfit_eq_none.mpr fun d hd => by have := mem_manMoveFields_span hd; omega

theorem manLens_answered (code : BitVec 3) (v : Int) :
    Answered s (· = .empty) ((wrongVariantUnless [.manLens] s).or none) (manLens code v s) := by
  refine onlyIn_answered fun hm => ?_
  split
  · exact .ok rfl fun _ => rfl
  · exact commit_answered_of_isManchester (List.mem_singleton.mp hm ▸ rfl) rfl

theorem vicSet_answered {ds : List Descriptor} (hfit : firstUnfit 31 ds = none) :
    Answered s (· = .empty) ((wrongVariantUnless [.vicCmd, .vicSpeed] s).or none) (vicSet ds s) :=
  onlyIn_answered fun hm => commit_answered_of_fits fun hs =>
    firstUnfit_of_le (width_of_isViconCommand (isViconCommand_of_mem hm) hs) hfit

/-- A move's pair always fits, so in a SpeedCommand frame the first speed field that VIC_SPEED_BITS cuts off is the
error (R155, R156). -/
theorem vicMove_answered {neg pos hi lo : Nat} (hp : IsDirectionPair neg pos) (v : Int) :
    Answered s (· = .empty)
      ((wrongVariantUnless [.vicCmd, .vicSpeed] s).or
        ((if s.variant = .vicSpeed ∧ s.cfg.rangePolicy = .strict ∧ 2047 < v.natAbs
          then some (.rangeError v) else none).or
          (if s.variant ≠ .vicSpeed then none
            else if s.cfg.vicSpeedBits < hi + 4 then some (.outOfRange hi 4)
            else if s.cfg.vicSpeedBits < lo + 7 then some (.outOfRange lo 7)
            else none)))
      (vicMove neg pos hi lo v s) := by
  refine onlyIn_answered fun hm => ?_
  have hpair : s.Sized → firstUnfit s.width (pair neg pos v) = none := fun hs =>
    firstUnfit_of_le (width_of_isViconCommand (isViconCommand_of_mem hm) hs) (hp.fits v)
  by_cases hv : s.variant = .vicSpeed
  · rw [if_pos hv, if_neg (not_not_intro hv)]
    refine rejectIf_answered (by simp [badVicSpeed_eq, hv]) (commit_answered fun hs => ?_)
    rw [firstUnfit_append_of_fits (hpair hs), width_of_frameWidth hv hs.2 rfl]
    simp only [vicSpeedFields, firstUnfit_cons, firstUnfit_nil, ← Nat.not_lt, ite_not]
    split
    · rfl
    · split <;> rfl
  · rw [if_neg hv, if_pos hv, if_neg fun h => hv h.1]
    exact commit_answered_of_fits hpair

end

/-- How each of the thirty operations ends: its checks stand in the order of the tables. -/
theorem exec_answered (i : Instr) (s : State) : Answered s (OkData i s) (errorOf i s) (exec i s) := by
  cases i with
  | bbNew n =>
    by_cases h : s.cfg.maxBits < n
    · rw [exec, execBbNew, if_pos h]
      exact .error _ fun _ => if_pos h
    · rw [exec, execBbNew, if_neg h, newFrame_of_fits (firstUnfit_nil n)]
      exact .ok rfl fun _ => if_neg h
  | bbGet k =>
    by_cases h : s.width ≤ k
    · rw [exec_bbGet_of_le h]
      exact .error _ fun _ => if_pos h
    · rw [exec_bbGet_of_lt (Nat.lt_of_not_le h)]
      exact .ok ⟨_, rfl⟩ fun _ => if_neg h
  | bbSet k b => exact onlyIn_answered fun _ => commit_flagField_answered k b
  | bbWrf first count value => exact onlyIn_answered fun _ => commit_one_answered ⟨first, count, value⟩
  | bbOctets => exact .ok ⟨_, rfl, by rw [octets, List.length_map, List.length_range]⟩ fun _ => rfl
  | frameDiscard => exact .ok rfl fun _ => rfl
  | frameInfo => exact .ok rfl fun _ => rfl
  | manNewPt => exact newManchester_answered .manPt _ (ds := []) rfl
  | manNewLens => exact newManchester_answered .manLens _ (ds := [manF2 _]) rfl
  | manNewAux => exact newManchester_answered .manAux _ (ds := [manF2 _]) rfl
  | manRecv r =>
    exact onlyIn_answered fun hm => rejectIf_answered (ite_accepted_eq_ite_rejected 1 255 r _)
      (commit_answered_of_isManchester (isManchester_of_mem hm) rfl)
  | manPan v => exact manMove_answered _ _ v
  | manTilt v => exact manMove_answered _ _ v
  | manZoom v => exact manLens_answered _ v
  | manFocus v => exact manLens_answered _ v
  | manIris v => exact manLens_answered _ v
  | manAux ch =>
    exact onlyIn_answered fun hm => rejectIf_answered (ite_accepted_eq_ite_rejected 1 6 ch _)
      (commit_answered_of_isManchester (List.mem_singleton.mp hm ▸ rfl) rfl)
  | vicNewStatus =>
    exact newFrame_answered (w := Config.vicStatusBits) (ds := Variant.fixedWrites s.cfg .vicStatus) fun _ => rfl
  | vicNewCmd => exact newFrame_answered fun ⟨⟨_, _, _, _, hcmd, _⟩, _⟩ => firstUnfit_of_le hcmd rfl
  | vicNewSpeed => exact newFrame_answered fun ⟨⟨_, _, _, _, _, hspeed, _⟩, _⟩ => firstUnfit_of_le hspeed rfl
  | vicRecv r =>
    exact onlyIn_answered fun hm => rejectIf_answered (ite_accepted_eq_ite_rejected 1 255 r _)
      (commit_answered_of_fits fun hs => firstUnfit_of_le (width_of_isVicon (isVicon_of_mem hm) hs) rfl)
  | vicPan v => exact vicMove_answered (by decide) v
  | vicTilt v => exact vicMove_answered (by decide) v
  | vicZoom v => exact vicSet_answered (IsDirectionPair.fits (by decide) v)
  | vicIris v =>
    rw [exec, execVicIris]
    cases s.cfg.irisPositive <;> exact vicSet_answered (IsDirectionPair.fits (by decide) v)
  | vicFocus v =>
    rw [exec, execVicFocus]
    cases s.cfg.focusPositive <;> exact vicSet_answered (IsDirectionPair.fits (by decide) v)
  | vicAutoIris b => exact vicSet_answered rfl
  | vicAutoPan b => exact vicSet_answered rfl
  | vicLensSpeed b => exact vicSet_answered rfl
  | vicAux ch b =>
    exact onlyIn_answered fun _ => rejectIf_answered (ite_accepted_eq_ite_rejected 1 6 ch _)
      (commit_flagField_answered _ b)

/-- Settles O10: an operation ends in an error response, whose code tells its kind, or in `OK` with its data. -/
theorem everyOperationGivesOneResponse : Obligations.EveryOperationGivesOneResponse := by
  intro i s
  have h := exec_answered i s
  generalize exec i s = k at h ⊢
  cases h with
  | error e he =>
    refine ⟨_, _, rfl, rfl, ?_, nofun⟩
    cases e <;> simp [Response.code]
  | ok hd he ht =>
    refine ⟨_, _, rfl, congrArg (· ++ [_]) ht, ⟨_, rfl⟩, fun d hr => ?_⟩
    cases hr
    cases i <;> exact hd

/-- Settles O13: an illegal word has no operation to check, and for any other the tables name the error. -/
theorem firstFailingCheckDecidesTheResponse : Obligations.FirstFailingCheckDecidesTheResponse := by
  intro w s hs
  cases hw : decode w with
  | error e => exact serve_of_error hw s
  | ok i =>
    have h := exec_answered i s
    simp only [serve, hw]
    generalize exec i s = k at h ⊢
    cases h with
    | error e he => rw [he hs]
    | ok hd he ht => rw [he hs]; exact ⟨_, _, rfl, congrArg (· ++ [_]) ht⟩

/-! ### What the reads observe (R193) -/

/-- No two variants have the same code (R21). -/
theorem Variant.code_injective : Function.Injective Variant.code := by
  intro v w h
  cases v <;> cases w <;> revert h <;> decide

section
variable {s t : State}

/-- An operation that answers `s` with `r` and nothing else answers `t` with the same response (R193). -/
theorem SameAnswer.response_eq {i : Instr} {r q : Response} (h : SameAnswer i s t)
    (hs : exec i s = .next (s.answer r)) (ht : exec i t = .next (t.answer q)) : r = q := by
  have hans := Host.Outcome.next.inj (((h r).mp hs).symm.trans ht)
  exact (State.answer_inj.mp hans).2

theorem variant_width_of_sameInfo (h : SameAnswer .frameInfo s t) : s.variant = t.variant ∧ s.width = t.width := by
  obtain ⟨hcode, hwidth⟩ := RespData.info.inj (Response.ok.inj (SameAnswer.response_eq h rfl rfl))
  exact ⟨Variant.code_injective hcode, hwidth⟩

theorem bit_of_sameGet {k : Nat} (h : SameAnswer (.bbGet k) s t) (hs : k < s.width) (ht : k < t.width) :
    s.frame.bit k = t.frame.bit k :=
  RespData.bit.inj (Response.ok.inj (SameAnswer.response_eq h (exec_bbGet_of_lt hs) (exec_bbGet_of_lt ht)))

theorem bit_eq_false_of_bitsWithin (h : s.BitsWithin) {k : Nat} (hk : s.width ≤ k) : s.frame.bit k = false :=
  Bool.eq_false_iff.mpr fun hb => Nat.not_lt.mpr hk (h k (Frame.mem_ones.mpr hb))

end

/-- Settles O60: `FRAME.INFO` shows the code of VARIANT, which no two share, and WIDTH; `BB.GET` shows each bit below
WIDTH, and none above is 1. -/
theorem readsObserveAllState : Obligations.ReadsObserveAllState := by
  rintro s t ⟨-, hwf, -, -, hbits, -⟩ ⟨-, hwf', -, -, hbits', -⟩ hinfo hget
  obtain ⟨hvariant, hwidth⟩ := variant_width_of_sameInfo hinfo
  refine ⟨hvariant, hwidth, Frame.ext_of_bit hwf hwf' fun k => ?_⟩
  rcases Nat.lt_or_ge k s.width with hk | hk
  · exact bit_of_sameGet (hget k) hk (hwidth ▸ hk)
  · rw [bit_eq_false_of_bitsWithin hbits hk, bit_eq_false_of_bitsWithin hbits' (hwidth ▸ hk)]

end Sys2Proof.Machine
